-- ==== Sys2Proof/Word.lean ====
section
/-! DEFINITION. The word types of the Code-8 core (spec/00_scope.md R7, R10, R12). -/

namespace Sys2Proof

/-- A byte: a general register, a timer, a memory cell, an immediate NN (R7 REG_W, TIMER_W; R37). -/
abbrev Byte := BitVec 8

/-- A 16-bit word: PC, I, a stack entry, an instruction (R22, R25, R26, R70). -/
abbrev Word := BitVec 16

/-- The number of a general register, V0 to VF, or of a key, 0 to F (R20, R34). -/
abbrev Reg := Fin 16

/-- The 16 key levels: `true` at `k` means that key `k` is pressed (R34). -/
abbrev Keys := Vector Bool 16

/-- One full load image: 4096 bytes, one per address (R240, R242). -/
abbrev Image := Vector Byte 4096

end Sys2Proof
end

