-- ==== Sys2Proof/Syntax.lean ====
section
/-! DEFINITION. The instructions: one constructor per row of spec/opcode_table.json, in the table's order
(spec/30_encoding.md R77, R78). The six `nop…` constructors are the six fall-back rows; each holds the low
12 bits of its word, so that no bit of an undefined word is lost (R76, R100). -/

namespace Sys2Proof

/-- An instruction of the Code-8 core. -/
inductive Instr where
  /-- `00E0` CLS (R160) -/
  | cls
  /-- `00EE` RET (R101) -/
  | ret
  /-- `1NNN` JP NNN (R102) -/
  | jp (nnn : BitVec 12)
  /-- `2NNN` CALL NNN (R103) -/
  | call (nnn : BitVec 12)
  /-- `3XNN` SE VX, NN (R104) -/
  | seVxNn (x : Reg) (nn : Byte)
  /-- `4XNN` SNE VX, NN (R105) -/
  | sneVxNn (x : Reg) (nn : Byte)
  /-- `5XY0` SE VX, VY (R106) -/
  | seVxVy (x y : Reg)
  /-- `6XNN` LD VX, NN (R120) -/
  | ldVxNn (x : Reg) (nn : Byte)
  /-- `7XNN` ADD VX, NN (R121) -/
  | addVxNn (x : Reg) (nn : Byte)
  /-- `8XY0` LD VX, VY (R122) -/
  | ldVxVy (x y : Reg)
  /-- `8XY1` OR VX, VY (R123) -/
  | orVxVy (x y : Reg)
  /-- `8XY2` AND VX, VY (R124) -/
  | andVxVy (x y : Reg)
  /-- `8XY3` XOR VX, VY (R125) -/
  | xorVxVy (x y : Reg)
  /-- `8XY4` ADD VX, VY (R126) -/
  | addVxVy (x y : Reg)
  /-- `8XY5` SUB VX, VY (R127) -/
  | subVxVy (x y : Reg)
  /-- `8XY6` SHR VX, VY (R128) -/
  | shrVxVy (x y : Reg)
  /-- `8XY7` SUBN VX, VY (R129) -/
  | subnVxVy (x y : Reg)
  /-- `8XYE` SHL VX, VY (R130) -/
  | shlVxVy (x y : Reg)
  /-- `9XY0` SNE VX, VY (R107) -/
  | sneVxVy (x y : Reg)
  /-- `ANNN` LD I, NNN (R140) -/
  | ldINnn (nnn : BitVec 12)
  /-- `BNNN` JP V0, NNN (R108); X is the top nibble of NNN (R79) -/
  | jpV0Nnn (nnn : BitVec 12)
  /-- `CXNN` RND VX, NN (R131) -/
  | rndVxNn (x : Reg) (nn : Byte)
  /-- `DXYN` DRW VX, VY, N (R161) -/
  | drwVxVyN (x y : Reg) (n : BitVec 4)
  /-- `EX9E` SKP VX (R180) -/
  | skpVx (x : Reg)
  /-- `EXA1` SKNP VX (R181) -/
  | sknpVx (x : Reg)
  /-- `FX07` LD VX, DT (R184) -/
  | ldVxDt (x : Reg)
  /-- `FX0A` LD VX, K (R182) -/
  | ldVxK (x : Reg)
  /-- `FX15` LD DT, VX (R185) -/
  | ldDtVx (x : Reg)
  /-- `FX18` LD ST, VX (R186) -/
  | ldStVx (x : Reg)
  /-- `FX1E` ADD I, VX (R141) -/
  | addIVx (x : Reg)
  /-- `FX29` LD F, VX (R142) -/
  | ldFVx (x : Reg)
  /-- `FX33` LD B, VX (R143) -/
  | ldBVx (x : Reg)
  /-- `FX55` LD [I], VX (R144) -/
  | ldMemVx (x : Reg)
  /-- `FX65` LD VX, [I] (R145) -/
  | ldVxMem (x : Reg)
  /-- `0NNN` other than `00E0`, `00EE`: NOP (R100) -/
  | nop0 (low : BitVec 12)
  /-- `5XYN` with N ≠ 0: NOP (R100) -/
  | nop5 (low : BitVec 12)
  /-- `8XYN` with N in 8 to D or F: NOP (R100) -/
  | nop8 (low : BitVec 12)
  /-- `9XYN` with N ≠ 0: NOP (R100) -/
  | nop9 (low : BitVec 12)
  /-- `EXNN` with NN neither 9E nor A1: NOP (R100) -/
  | nopE (low : BitVec 12)
  /-- `FXNN` with NN none of 07, 0A, 15, 18, 1E, 29, 33, 55, 65: NOP (R100) -/
  | nopF (low : BitVec 12)
  deriving DecidableEq, Repr

end Sys2Proof
end

