-- ==== Sys2Proof/WellFormed.lean ====
section
/-! DEFINITION. Which instruction terms stand for a word. The operand types hold every bound the formats
give (spec/30_encoding.md R72), so the only checks are those of the six fall-back rows: their low bits are
none of the family's defined discriminants (R75, R76). -/

namespace Sys2Proof

/-- The discriminants `op[11:0]` of family 0 (R75). -/
def definedLow0 : List (BitVec 12) := [0x0E0, 0x0EE]

/-- The discriminants `op[3:0]` of families 5 and 9 (R75). -/
def definedLow59 : List (BitVec 4) := [0x0]

/-- The discriminants `op[3:0]` of family 8 (R75). -/
def definedLow8 : List (BitVec 4) := [0x0, 0x1, 0x2, 0x3, 0x4, 0x5, 0x6, 0x7, 0xE]

/-- The discriminants `op[7:0]` of family E (R75). -/
def definedLowE : List (BitVec 8) := [0x9E, 0xA1]

/-- The discriminants `op[7:0]` of family F (R75). -/
def definedLowF : List (BitVec 8) := [0x07, 0x0A, 0x15, 0x18, 0x1E, 0x29, 0x33, 0x55, 0x65]

/-- The term stands for a word of its own row. -/
def Instr.wellFormed : Instr → Bool
  | .nop0 low => !definedLow0.contains low
  | .nop5 low => !definedLow59.contains (low.extractLsb' 0 4)
  | .nop8 low => !definedLow8.contains (low.extractLsb' 0 4)
  | .nop9 low => !definedLow59.contains (low.extractLsb' 0 4)
  | .nopE low => !definedLowE.contains (low.extractLsb' 0 8)
  | .nopF low => !definedLowF.contains (low.extractLsb' 0 8)
  | .cls | .ret | .jp _ | .call _ | .seVxNn _ _ | .sneVxNn _ _ | .seVxVy _ _ | .ldVxNn _ _
  | .addVxNn _ _ | .ldVxVy _ _ | .orVxVy _ _ | .andVxVy _ _ | .xorVxVy _ _ | .addVxVy _ _
  | .subVxVy _ _ | .shrVxVy _ _ | .subnVxVy _ _ | .shlVxVy _ _ | .sneVxVy _ _ | .ldINnn _
  | .jpV0Nnn _ | .rndVxNn _ _ | .drwVxVyN _ _ _ | .skpVx _ | .sknpVx _ | .ldVxDt _ | .ldVxK _
  | .ldDtVx _ | .ldStVx _ | .addIVx _ | .ldFVx _ | .ldBVx _ | .ldMemVx _ | .ldVxMem _ => true

end Sys2Proof
end

