-- ==== Sys2Proof/Decode.lean ====
section
/-! DEFINITION. The decoder, total on any bytes (spec/30_encoding.md R70 to R79, R86), the encoder written
from the same formats (R72, R77), and `decodeTableWord`, the host's question about one table word. -/

namespace Sys2Proof

/-- The instruction word of two bytes, the byte at the lower address first and most significant (R52, R70). -/
def wordOfBytes (hi lo : Byte) : Word := hi ++ lo

/-- `op[15:8]`, the byte at the lower address (R52). -/
def highByte (op : Word) : Byte := op.extractLsb' 8 8

/-- `op[7:0]`, the byte at the higher address (R52). -/
def lowByte (op : Word) : Byte := op.extractLsb' 0 8

/-! The fields, all cut from the same word (R71, R73). -/

/-- Nibble 1, the family: `op[15:12]`. -/
def family (op : Word) : BitVec 4 := op.extractLsb' 12 4
/-- X: `op[11:8]`. -/
def fieldX (op : Word) : Reg := (op.extractLsb' 8 4).toFin
/-- Y: `op[7:4]`. -/
def fieldY (op : Word) : Reg := (op.extractLsb' 4 4).toFin
/-- N: `op[3:0]`. -/
def fieldN (op : Word) : BitVec 4 := op.extractLsb' 0 4
/-- NN: `op[7:0]`. -/
def fieldNN (op : Word) : Byte := op.extractLsb' 0 8
/-- NNN: `op[11:0]`. -/
def fieldNNN (op : Word) : BitVec 12 := op.extractLsb' 0 12

/-! The second level, per family (R75); what matches no discriminant is the family's no-operation (R76). -/

def decodeFamily0 (op : Word) : Instr :=
  if fieldNNN op = 0x0E0 then .cls
  else if fieldNNN op = 0x0EE then .ret
  else .nop0 (fieldNNN op)

def decodeFamily5 (op : Word) : Instr :=
  if fieldN op = 0x0 then .seVxVy (fieldX op) (fieldY op) else .nop5 (fieldNNN op)

def decodeFamily8 (op : Word) : Instr :=
  if fieldN op = 0x0 then .ldVxVy (fieldX op) (fieldY op)
  else if fieldN op = 0x1 then .orVxVy (fieldX op) (fieldY op)
  else if fieldN op = 0x2 then .andVxVy (fieldX op) (fieldY op)
  else if fieldN op = 0x3 then .xorVxVy (fieldX op) (fieldY op)
  else if fieldN op = 0x4 then .addVxVy (fieldX op) (fieldY op)
  else if fieldN op = 0x5 then .subVxVy (fieldX op) (fieldY op)
  else if fieldN op = 0x6 then .shrVxVy (fieldX op) (fieldY op)
  else if fieldN op = 0x7 then .subnVxVy (fieldX op) (fieldY op)
  else if fieldN op = 0xE then .shlVxVy (fieldX op) (fieldY op)
  else .nop8 (fieldNNN op)

def decodeFamily9 (op : Word) : Instr :=
  if fieldN op = 0x0 then .sneVxVy (fieldX op) (fieldY op) else .nop9 (fieldNNN op)

def decodeFamilyE (op : Word) : Instr :=
  if fieldNN op = 0x9E then .skpVx (fieldX op)
  else if fieldNN op = 0xA1 then .sknpVx (fieldX op)
  else .nopE (fieldNNN op)

def decodeFamilyF (op : Word) : Instr :=
  if fieldNN op = 0x07 then .ldVxDt (fieldX op)
  else if fieldNN op = 0x0A then .ldVxK (fieldX op)
  else if fieldNN op = 0x15 then .ldDtVx (fieldX op)
  else if fieldNN op = 0x18 then .ldStVx (fieldX op)
  else if fieldNN op = 0x1E then .addIVx (fieldX op)
  else if fieldNN op = 0x29 then .ldFVx (fieldX op)
  else if fieldNN op = 0x33 then .ldBVx (fieldX op)
  else if fieldNN op = 0x55 then .ldMemVx (fieldX op)
  else if fieldNN op = 0x65 then .ldVxMem (fieldX op)
  else .nopF (fieldNNN op)

/-- Decode one word: first the family, then its discriminant (R74 to R77). Every word decodes (R76), and
nothing but the word is read (R86). -/
def decode (op : Word) : Instr :=
  match (family op).toNat with
  | 0x0 => decodeFamily0 op
  | 0x1 => .jp (fieldNNN op)
  | 0x2 => .call (fieldNNN op)
  | 0x3 => .seVxNn (fieldX op) (fieldNN op)
  | 0x4 => .sneVxNn (fieldX op) (fieldNN op)
  | 0x5 => decodeFamily5 op
  | 0x6 => .ldVxNn (fieldX op) (fieldNN op)
  | 0x7 => .addVxNn (fieldX op) (fieldNN op)
  | 0x8 => decodeFamily8 op
  | 0x9 => decodeFamily9 op
  | 0xA => .ldINnn (fieldNNN op)
  | 0xB => .jpV0Nnn (fieldNNN op)
  | 0xC => .rndVxNn (fieldX op) (fieldNN op)
  | 0xD => .drwVxVyN (fieldX op) (fieldY op) (fieldN op)
  | 0xE => decodeFamilyE op
  | _ => decodeFamilyF op

/-- Why a byte sequence is not an instruction. -/
inductive DecodeError where
  /-- Fewer than the two bytes every instruction has (R70). Safe: the machine's own fetch raises
  `FetchOutOfRange` before it would hand the decoder fewer (R203). -/
  | truncated
  deriving DecidableEq, Repr

/-- Decode the first instruction of a byte sequence: two bytes, high byte first; the rest is returned
(R52, R70). -/
def decodeBytes : List Byte → Except DecodeError (Instr × List Byte)
  | hi :: lo :: rest => .ok (decode (wordOfBytes hi lo), rest)
  | [_] => .error .truncated
  | [] => .error .truncated

/-! The encoder: the formats of R72, the fixed bits of R77. -/

/-- The 4-bit field of a register number. -/
def regBits (x : Reg) : BitVec 4 := BitVec.ofNat 4 x.val

/-- Format A (and the six fall-back rows): family, NNN. -/
def packA (fam : BitVec 4) (nnn : BitVec 12) : Word := fam ++ nnn
/-- Formats I and U: family, X, NN or the fixed sub-operation byte. -/
def packI (fam : BitVec 4) (x : Reg) (nn : Byte) : Word := fam ++ regBits x ++ nn
/-- Formats R and D: family, X, Y, the sub-operation nibble or N. -/
def packR (fam : BitVec 4) (x y : Reg) (n : BitVec 4) : Word := fam ++ regBits x ++ regBits y ++ n

/-- The word of an instruction (R77). -/
def encode : Instr → Word
  | .cls => 0x00E0
  | .ret => 0x00EE
  | .jp nnn => packA 0x1 nnn
  | .call nnn => packA 0x2 nnn
  | .seVxNn x nn => packI 0x3 x nn
  | .sneVxNn x nn => packI 0x4 x nn
  | .seVxVy x y => packR 0x5 x y 0x0
  | .ldVxNn x nn => packI 0x6 x nn
  | .addVxNn x nn => packI 0x7 x nn
  | .ldVxVy x y => packR 0x8 x y 0x0
  | .orVxVy x y => packR 0x8 x y 0x1
  | .andVxVy x y => packR 0x8 x y 0x2
  | .xorVxVy x y => packR 0x8 x y 0x3
  | .addVxVy x y => packR 0x8 x y 0x4
  | .subVxVy x y => packR 0x8 x y 0x5
  | .shrVxVy x y => packR 0x8 x y 0x6
  | .subnVxVy x y => packR 0x8 x y 0x7
  | .shlVxVy x y => packR 0x8 x y 0xE
  | .sneVxVy x y => packR 0x9 x y 0x0
  | .ldINnn nnn => packA 0xA nnn
  | .jpV0Nnn nnn => packA 0xB nnn
  | .rndVxNn x nn => packI 0xC x nn
  | .drwVxVyN x y n => packR 0xD x y n
  | .skpVx x => packI 0xE x 0x9E
  | .sknpVx x => packI 0xE x 0xA1
  | .ldVxDt x => packI 0xF x 0x07
  | .ldVxK x => packI 0xF x 0x0A
  | .ldDtVx x => packI 0xF x 0x15
  | .ldStVx x => packI 0xF x 0x18
  | .addIVx x => packI 0xF x 0x1E
  | .ldFVx x => packI 0xF x 0x29
  | .ldBVx x => packI 0xF x 0x33
  | .ldMemVx x => packI 0xF x 0x55
  | .ldVxMem x => packI 0xF x 0x65
  | .nop0 low => packA 0x0 low
  | .nop5 low => packA 0x5 low
  | .nop8 low => packA 0x8 low
  | .nop9 low => packA 0x9 low
  | .nopE low => packA 0xE low
  | .nopF low => packA 0xF low

/-- The two bytes of an instruction as the image holds them (R52). -/
def encodeBytes (i : Instr) : List Byte := [highByte (encode i), lowByte (encode i)]

/-! The opcode map of R77 as data: the 34 rows of masks and matches, in the table's order, for statements
about the decoder. The decoder does not read it. -/

/-- Mask and match of an instruction's row of R77; a fall-back row has none. -/
def Instr.maskMatch? : Instr → Option (Word × Word)
  | .cls => some (0xFFFF, 0x00E0)
  | .ret => some (0xFFFF, 0x00EE)
  | .jp _ => some (0xF000, 0x1000)
  | .call _ => some (0xF000, 0x2000)
  | .seVxNn _ _ => some (0xF000, 0x3000)
  | .sneVxNn _ _ => some (0xF000, 0x4000)
  | .seVxVy _ _ => some (0xF00F, 0x5000)
  | .ldVxNn _ _ => some (0xF000, 0x6000)
  | .addVxNn _ _ => some (0xF000, 0x7000)
  | .ldVxVy _ _ => some (0xF00F, 0x8000)
  | .orVxVy _ _ => some (0xF00F, 0x8001)
  | .andVxVy _ _ => some (0xF00F, 0x8002)
  | .xorVxVy _ _ => some (0xF00F, 0x8003)
  | .addVxVy _ _ => some (0xF00F, 0x8004)
  | .subVxVy _ _ => some (0xF00F, 0x8005)
  | .shrVxVy _ _ => some (0xF00F, 0x8006)
  | .subnVxVy _ _ => some (0xF00F, 0x8007)
  | .shlVxVy _ _ => some (0xF00F, 0x800E)
  | .sneVxVy _ _ => some (0xF00F, 0x9000)
  | .ldINnn _ => some (0xF000, 0xA000)
  | .jpV0Nnn _ => some (0xF000, 0xB000)
  | .rndVxNn _ _ => some (0xF000, 0xC000)
  | .drwVxVyN _ _ _ => some (0xF000, 0xD000)
  | .skpVx _ => some (0xF0FF, 0xE09E)
  | .sknpVx _ => some (0xF0FF, 0xE0A1)
  | .ldVxDt _ => some (0xF0FF, 0xF007)
  | .ldVxK _ => some (0xF0FF, 0xF00A)
  | .ldDtVx _ => some (0xF0FF, 0xF015)
  | .ldStVx _ => some (0xF0FF, 0xF018)
  | .addIVx _ => some (0xF0FF, 0xF01E)
  | .ldFVx _ => some (0xF0FF, 0xF029)
  | .ldBVx _ => some (0xF0FF, 0xF033)
  | .ldMemVx _ => some (0xF0FF, 0xF055)
  | .ldVxMem _ => some (0xF0FF, 0xF065)
  | .nop0 _ | .nop5 _ | .nop8 _ | .nop9 _ | .nopE _ | .nopF _ => none

/-- The 34 (mask, match) pairs of R77, top to bottom. -/
def opcodeMap : List (Word × Word) :=
  [(0xFFFF, 0x00E0), (0xFFFF, 0x00EE), (0xF000, 0x1000), (0xF000, 0x2000), (0xF000, 0x3000),
   (0xF000, 0x4000), (0xF00F, 0x5000), (0xF000, 0x6000), (0xF000, 0x7000)] ++
  [(0xF00F, 0x8000), (0xF00F, 0x8001), (0xF00F, 0x8002), (0xF00F, 0x8003), (0xF00F, 0x8004),
   (0xF00F, 0x8005), (0xF00F, 0x8006), (0xF00F, 0x8007), (0xF00F, 0x800E)] ++
  [(0xF00F, 0x9000), (0xF000, 0xA000), (0xF000, 0xB000), (0xF000, 0xC000), (0xF000, 0xD000),
   (0xF0FF, 0xE09E), (0xF0FF, 0xE0A1)] ++
  [(0xF0FF, 0xF007), (0xF0FF, 0xF00A), (0xF0FF, 0xF015), (0xF0FF, 0xF018), (0xF0FF, 0xF01E),
   (0xF0FF, 0xF029), (0xF0FF, 0xF033), (0xF0FF, 0xF055), (0xF0FF, 0xF065)]

/-- The word of the table's numbering: bit 0 is the least significant bit of the 16-bit word, and every bit
from `nbits` up is 0. -/
def tableWord (nbits w : Nat) : Word := BitVec.ofNat 16 (w % 2 ^ nbits)

/-- What the decoder reads from a table word: its bytes laid out high byte first (R52). A row wider than
the one length of R70 is no instruction. -/
def decodeTableWord (nbits w : Nat) : Option Instr :=
  if nbits ≤ 16 then
    match decodeBytes [highByte (tableWord nbits w), lowByte (tableWord nbits w)] with
    | .ok (i, _) => some i
    | .error _ => none
  else none

end Sys2Proof
end

