-- ==== Sys2Proof/Config.lean ====
section
/-! DEFINITION. What is fixed for one machine: the fixed sizes (spec/00_scope.md R7), the configuration
record CONFIG (R8, R9, R32), and the free values, which stand for what the host does where the state does
not script it (notes/assumptions/2.md). -/

namespace Sys2Proof

/-- MEM_SIZE, 4096 bytes: addresses 0x000 to 0xFFF exist and no other (R7, R50). -/
def memSize : Nat := 0x1000

/-- PROG_BASE, 0x200: the entry point (R7, R241). -/
def progBase : Word := 0x200

/-- SHIFT_MODE: what `8XY6` and `8XYE` shift (R8). -/
inductive ShiftMode where
  /-- `ShiftVY`: VY is shifted into VX. -/
  | shiftVY
  /-- `ShiftVX`: VX is shifted in place, Y ignored. -/
  | shiftVX
  deriving DecidableEq, Repr

/-- EDGE_MODE: what becomes of a sprite pixel outside the grid (R9, R162). -/
inductive EdgeMode where
  | wrap
  | clip
  deriving DecidableEq, Repr

/-- CONFIG, set by Reset and constant until the next one (R8, R9, R32, R243). -/
structure Config where
  shiftMode : ShiftMode
  /-- LOAD_STORE_INCREMENTS_I: `FX55` and `FX65` advance I by X + 1. -/
  loadStoreIncrementsI : Bool
  /-- JUMP_USES_VX: `BNNN` adds V[X] in place of V[0]. -/
  jumpUsesVx : Bool
  edgeMode : EdgeMode
  /-- FONT_BASE: an address with FONT_BASE + 79 ≤ 0xFFF, that is, below 4017. -/
  fontBase : Fin 4017
  deriving DecidableEq, Repr

/-- The key vector the host supplies in the n-th unscripted Cycle: any value (R34, R223). -/
opaque Config.freeKeys : Nat → Keys

/-- The byte the random source presents in the n-th unscripted Cycle: any value (R36). -/
opaque Config.freeRandom : Nat → Byte

/-- How many Ticks fall before the n-th unscripted Cycle: any number, zero included (R215). -/
opaque Config.freeTicks : Nat → Nat

end Sys2Proof
end

