-- ==== Sys2Proof/Machine/State.lean ====
section
/-! DEFINITION. The state of the core as plain data (spec/10_state.md R20 to R41), the reasons a step can
stop, and the machine right after Reset (R40). -/

namespace Sys2Proof.Machine

/-- The four fatal faults (spec/60_exceptions.md R200). They are not outcomes of a step: raising one is a
next state in mode `halted` (R206). -/
inductive FaultCause where
  | stackOverflow
  | stackUnderflow
  | fetchOutOfRange
  | dataOutOfRange
  deriving DecidableEq, Repr

/-- MODE, the engine's run state (R31). -/
inductive Mode where
  /-- The next Cycle fetches and executes the instruction at PC. -/
  | running
  /-- `FX0A` with X = x has started and no key has yet gone from released to pressed. -/
  | awaitingKey (x : Reg)
  /-- A fatal fault happened: its cause, the recorded `pc` and the recorded `addr` (R200). -/
  | halted (cause : FaultCause) (pc : Word) (addr : Nat)
  deriving DecidableEq, Repr

/-- One output event of a Cycle (R33). -/
inductive Event where
  | fullClear
  | pixelChanged (row : Fin 32) (column : Fin 64) (newValue : Bool)
  deriving DecidableEq, Repr

/-- The display: 32 rows of 64 cells, `true` for lit (R33, R166). -/
abbrev Display := Vector (Vector Bool 64) 32

/-- MEM as a list of (address, byte) pairs; an address not listed reads as 0x00 (notes/assumptions/1.md). -/
abbrev Memory := List Host.Cell

/-- The canonical form of a memory: addresses strictly rising and below 0x1000, no entry equal to what an
unlisted address reads as. -/
abbrev Memory.wf (m : Memory) : Prop :=
  m.Pairwise (fun c d => c.1 < d.1) ∧ ∀ c ∈ m, c.1 < memSize ∧ c.2 ≠ 0

/-- One transition of the core, as the host issues it (spec/00_scope.md R6, spec/70 R251). -/
inductive HostMove where
  /-- `Cycle(keys_in, rnd)` -/
  | cycle (keysIn : Keys) (rnd : Byte)
  /-- `Tick` -/
  | tick
  /-- `Reset(image, config)` -/
  | reset (image : Image) (config : Config)
  deriving DecidableEq, Repr

/-- The state: the tuple of spec/10_state.md, then the model's own fields (notes/assumptions/2.md). -/
structure State where
  /-- V0 to VF (R20, R21). -/
  v : Vector Byte 16
  /-- I, the index register (R25). -/
  i : Word
  /-- PC (R22). -/
  pc : Word
  /-- SP, the number of stack entries in use, 0 to 16 (R26, R30). -/
  sp : Fin 17
  /-- STACK[0..15] (R26). -/
  stack : Vector Word 16
  /-- DT, the delay timer (R28). -/
  dt : Byte
  /-- ST, the sound timer (R29). -/
  st : Byte
  /-- DISP (R33). -/
  disp : Display
  /-- MEM (R37). -/
  mem : Memory
  /-- KEYS, the key latch (R34). -/
  keys : Keys
  /-- KPREV, the key latch of the previous Cycle (R35). -/
  kprev : Keys
  /-- MODE (R31). -/
  mode : Mode
  /-- CONFIG (R32). -/
  config : Config
  /-- The model's own: the random byte presented in the current Cycle, an input (R36). -/
  rnd : Byte
  /-- The model's own: what the most recent Cycle has emitted, an output no rule reads (R33). -/
  events : List Event
  /-- The model's own: the transitions the host will issue next, oldest first (R6, R251). -/
  script : List HostMove
  /-- The model's own: how many unscripted Cycles have run; it indexes the free values. -/
  unscripted : Nat
  deriving DecidableEq, Repr

/-- The reasons a step can end in a fault. There is none: every fault of the core is a next state in mode
`halted` (R206), and `halted` itself goes on (R208). Nothing raises one. -/
inductive Fault
  deriving DecidableEq, Repr

/-- The reasons a step can end in a refusal. -/
inductive Refusal where
  /-- Raised by the dispatch for an instruction with no meaning yet. No arm does (safe in any case: the
  model stops where the core goes on). -/
  | notModelled (mnemonic : String)
  deriving DecidableEq, Repr

/-- CONFIG of `State.reset`: the baseline values of R8 and the defaults of R9; `ShiftVX` is the model's
DESIGN CHOICE, the spec giving no default (notes/assumptions/4.md). -/
def configAtReset : Config :=
  { shiftMode := .shiftVX, loadStoreIncrementsI := false, jumpUsesVx := false,
    edgeMode := .wrap, fontBase := 0 }

/-- The machine right after Reset (R40, R241), for the image of 4096 zero bytes and `configAtReset`;
`State.resetWith` is Reset for every image and config. -/
def State.reset : State :=
  { v := Vector.replicate 16 0
    i := 0
    pc := progBase
    sp := 0
    stack := Vector.replicate 16 0
    dt := 0
    st := 0
    disp := Vector.replicate 32 (Vector.replicate 64 false)
    mem := []
    keys := Vector.replicate 16 false
    kprev := Vector.replicate 16 false
    mode := .running
    config := configAtReset
    rnd := 0
    events := []
    script := []
    unscripted := 0 }

end Sys2Proof.Machine
end

