-- ==== Sys2Proof/Machine/Operands.lean ====
section
/-! DEFINITION. The operand forms: register reads and writes, immediates, the low nibble of a register
(spec/30_encoding.md R73), and the advance of PC (R23). -/

namespace Sys2Proof.Machine

/-- VF, the flag register (R21). -/
def regF : Reg := 15

/-- `V[x]` (R11, R20): no register is hardwired. -/
def State.getV (s : State) (x : Reg) : Byte := s.v[x]

/-- `V[x] <- b` (R11, R20). -/
def State.setV (s : State) (x : Reg) (b : Byte) : State := { s with v := s.v.set x b }

/-- `V[X] & 0xF`, as a key number or a digit (R73, R142, R180). -/
def lowNibble (b : Byte) : Fin 16 := (b.extractLsb' 0 4).toFin

/-- X of a `BNNN` word under JUMP_USES_VX: the top nibble of NNN (R79, R108). -/
def topNibble (nnn : BitVec 12) : Reg := (nnn.extractLsb' 8 4).toFin

/-- A 12-bit address zero-extended to the width of PC and I (R73). -/
def addressOf (nnn : BitVec 12) : Word := nnn.setWidth 16

/-- The default PC advance, `PC <- pc0 + 2` (R83). -/
def State.advance (s : State) : State := { s with pc := s.pc + 2 }

/-- `PC <- pc0 + 4` when the condition holds, else `pc0 + 2` (R23, R104). -/
def State.skipIf (c : Bool) (s : State) : State := { s with pc := s.pc + (if c then 4 else 2) }

/-- `PC <- target` (R23). -/
def State.jumpTo (target : Word) (s : State) : State := { s with pc := target }

/-- The source of the shifts: V[Y] under `ShiftVY`, V[X] under `ShiftVX` (R128, R130). -/
def State.shiftSource (s : State) (x y : Reg) : Byte :=
  match s.config.shiftMode with
  | .shiftVY => s.getV y
  | .shiftVX => s.getV x

/-- The register `BNNN` adds (R108). -/
def State.jumpRegister (s : State) (nnn : BitVec 12) : Reg :=
  if s.config.jumpUsesVx then topNibble nnn else 0

end Sys2Proof.Machine
end

