-- ==== Sys2Proof/Machine/Flags.lean ====
section
/-! DEFINITION. The flag outcomes that VF receives (spec/41_load_alu_random.md R126 to R132,
spec/43_display.md R163). -/

namespace Sys2Proof.Machine

/-- `b ? 1 : 0` as a register value (R11). -/
def flagByte (b : Bool) : Byte := if b then 1 else 0

/-- Carry out of bit 7 (R126). -/
def carryFlag (a b : Byte) : Byte := flagByte (decide (255 < a.toNat + b.toNat))

/-- 1 when `a - b` needs no borrow (R127, R129). -/
def noBorrowFlag (a b : Byte) : Byte := flagByte (decide (b.toNat ≤ a.toNat))

/-- The bit a right shift by one moves out (R128). -/
def shiftedOutRight (src : Byte) : Byte := flagByte (src.getLsbD 0)

/-- The bit a left shift by one moves out (R130). -/
def shiftedOutLeft (src : Byte) : Byte := flagByte (src.getLsbD 7)

/-- Write V[X], then V[15] last, so that with X = 15 the flag remains (R132). -/
def State.setResultAndFlag (s : State) (x : Reg) (result flag : Byte) : State :=
  (s.setV x result).setV regF flag

end Sys2Proof.Machine
end

