-- ==== Sys2Proof/Machine/Ops.lean ====
section
/-! DEFINITION. The shared operations: memory, faults, the call stack, the display, the key latch, the
timers and Reset. -/

namespace Sys2Proof.Machine

/-! ## Memory (spec/20_memory.md) -/

/-- `MEM[a]`; an unlisted address reads as 0x00. -/
def Memory.get : Memory → Nat → Byte
  | [], _ => 0
  | c :: m, a => if c.1 = a then c.2 else Memory.get m a

/-- `MEM[a] <- b`, keeping the canonical form: writing 0x00 removes the entry. -/
def Memory.set : Memory → Nat → Byte → Memory
  | [], a, b => if b = 0 then [] else [(a, b)]
  | c :: m, a, b =>
    if a < c.1 then (if b = 0 then c :: m else (a, b) :: c :: m)
    else if a = c.1 then (if b = 0 then m else (a, b) :: m)
    else c :: Memory.set m a b

/-- The `n` bytes from `a` up, in ascending order (R59). -/
def Memory.getBytes (m : Memory) (a : Nat) : Nat → List Byte
  | 0 => []
  | n + 1 => m.get a :: Memory.getBytes m (a + 1) n

/-- Store bytes from `a` up, in ascending order (R59). -/
def Memory.setBytes (m : Memory) (a : Nat) : List Byte → Memory
  | [] => m
  | b :: bs => Memory.setBytes (m.set a b) (a + 1) bs

/-- The cells of a byte list laid down from address `a`, zeros left unlisted. -/
def Memory.ofBytes : Nat → List Byte → Memory
  | _, [] => []
  | a, b :: bs => if b = 0 then Memory.ofBytes (a + 1) bs else (a, b) :: Memory.ofBytes (a + 1) bs

/-- MEM holding a whole load image (R40, R242). -/
def Memory.ofImage (image : Image) : Memory := Memory.ofBytes 0 image.toList

/-- The range test of an access to `n` bytes at `a`: the lowest address of 0x1000 or more among them, if
there is one (R55, R58). No byte is out of range when `n = 0` (R161). -/
def outOfRange? (a n : Nat) : Option Nat :=
  if n ≠ 0 ∧ memSize < a + n then some (max a memSize) else none

/-- `MemRead(a, n)`: the bytes, or the address to report (R58). -/
def memRead (m : Memory) (a n : Nat) : Except Nat (List Byte) :=
  match outOfRange? a n with
  | some bad => .error bad
  | none => .ok (m.getBytes a n)

/-- `MemWrite(a, n, v)`, the bytes most significant first: the memory, or the address to report (R58). All
the addresses are tested before the first store (R205). -/
def memWrite (m : Memory) (a : Nat) (bytes : List Byte) : Except Nat Memory :=
  match outOfRange? a bytes.length with
  | some bad => .error bad
  | none => .ok (m.setBytes a bytes)

/-! ## Taking a fault (spec/60_exceptions.md R200, R205, R206)

`raise` is the whole of the exception entry: MODE changes and nothing else. There is no return from it
(R207). -/

/-- The code of a cause in the record shown to the host (R200). -/
def FaultCause.code : FaultCause → Nat
  | .stackOverflow => 1
  | .stackUnderflow => 2
  | .fetchOutOfRange => 3
  | .dataOutOfRange => 4

/-- `raise F(info)`: MODE becomes `halted` with the record (cause, pc0, addr). -/
def State.raise (cause : FaultCause) (addr : Nat) (s : State) : State :=
  { s with mode := .halted cause s.pc addr }

/-! ## The call stack (R26, R101, R103) -/

/-- Push a return address; none when all 16 entries are in use. -/
def State.push (s : State) (a : Word) : Option State :=
  if h : s.sp.val < 16 then
    some { s with stack := s.stack.set s.sp.val a, sp := ⟨s.sp.val + 1, by omega⟩ }
  else none

/-- Pop the most recent return address; none when the stack is empty. The popped cell keeps its value. -/
def State.pop (s : State) : Option (Word × State) :=
  if h : 0 < s.sp.val then
    some (s.stack[s.sp.val - 1]'(by omega), { s with sp := ⟨s.sp.val - 1, by omega⟩ })
  else none

/-! ## The display (spec/43_display.md) -/

/-- `DISP[r][c]`. -/
def Display.cell (d : Display) (r : Fin 32) (c : Fin 64) : Bool := d[r][c]

/-- `DISP[r][c] <- b`. -/
def Display.setCell (d : Display) (r : Fin 32) (c : Fin 64) (b : Bool) : Display :=
  d.set r (d[r].set c b)

/-- The display with every cell false (R160). -/
def Display.blank : Display := Vector.replicate 32 (Vector.replicate 64 false)

/-- `Target(x, y)`: where a sprite pixel lands, if on the grid (R162). -/
def target (mode : EdgeMode) (x y : Nat) : Option (Fin 32 × Fin 64) :=
  match mode with
  | .wrap => some (⟨y % 32, Nat.mod_lt _ (by decide)⟩, ⟨x % 64, Nat.mod_lt _ (by decide)⟩)
  | .clip => if h : x < 64 ∧ y < 32 then some (⟨y, h.2⟩, ⟨x, h.1⟩) else none

/-- The columns of a sprite row's 1-pixels, ascending; bit 7 is column 0 (R161). -/
def rowPixels (b : Byte) : List Nat := (List.range 8).filter (fun col => b.getLsbD (7 - col))

/-- The (row, column) pairs of a sprite's 1-pixels in scan order: row ascending, then column (R161, R164). -/
def spritePixels : Nat → List Byte → List (Nat × Nat)
  | _, [] => []
  | row, b :: bs => (rowPixels b).map (fun col => (row, col)) ++ spritePixels (row + 1) bs

/-- The cells a sprite at (x0, y0) toggles, in scan order: the targets of its 1-pixels that are on the
grid (R161, R162). -/
def spriteTargets (mode : EdgeMode) (x0 y0 : Nat) (sprite : List Byte) : List (Fin 32 × Fin 64) :=
  (spritePixels 0 sprite).filterMap (fun p => target mode (x0 + p.2) (y0 + p.1))

/-- What a draw has done so far (R161). -/
structure Blit where
  disp : Display
  collision : Bool
  events : List Event
  deriving DecidableEq, Repr

/-- One pixel of the XOR-blit: toggle the cell, note a collision, report the change (R161, R163, R164). -/
def Blit.pixel (b : Blit) (p : Fin 32 × Fin 64) : Blit :=
  let old := b.disp.cell p.1 p.2
  { disp := b.disp.setCell p.1 p.2 (!old)
    collision := b.collision || old
    events := b.events ++ [.pixelChanged p.1 p.2 (!old)] }

/-- The XOR-blit over all targets in order; never cut short (R163). -/
def blit (d : Display) (targets : List (Fin 32 × Fin 64)) : Blit :=
  targets.foldl Blit.pixel { disp := d, collision := false, events := [] }

/-- `emit`: append to the output of this Cycle (R11, R33). -/
def State.emit (s : State) (es : List Event) : State := { s with events := s.events ++ es }

/-! ## Registers and memory, decimal digits (spec/42_index_memory.md) -/

/-- V[0] to V[x], ascending (R144). -/
def State.lowRegisters (s : State) (x : Reg) : List Byte := s.v.toList.take (x.val + 1)

/-- `V[k] <- bytes[k]` for k from 0 up; registers past the list keep their value (R145). -/
def State.setLowRegisters (s : State) (bytes : List Byte) : State :=
  { s with v := Vector.ofFn (fun k : Fin 16 => (bytes[k.val]?).getD s.v[k]) }

/-- The optional post-increment of `FX55` and `FX65`: `I <- I + X + 1` (R144, R145). -/
def State.postIncrement (s : State) (x : Reg) : State :=
  { s with i := if s.config.loadStoreIncrementsI then s.i + BitVec.ofNat 16 (x.val + 1) else s.i }

/-- The hundreds, tens and ones digits of a byte (R143). -/
def decimalDigits (b : Byte) : List Byte :=
  [BitVec.ofNat 8 (b.toNat / 100), BitVec.ofNat 8 (b.toNat / 10 % 10), BitVec.ofNat 8 (b.toNat % 10)]

/-- The address of the glyph of a digit: `FONT_BASE + 5 * digit` (R142). -/
def glyphAddress (config : Config) (digit : Fin 16) : Word :=
  BitVec.ofNat 16 (config.fontBase.val + 5 * digit.val)

/-! ## Keys (spec/44_keys_timers.md R183, spec/30_encoding.md R82) -/

/-- The lowest-numbered key that is pressed now and was released in the previous sample (R183). -/
def newKey? (keys kprev : Keys) : Option (Fin 16) :=
  (List.finRange 16).find? (fun k => keys[k] && !kprev[k])

/-- The start of a Cycle: KEYS is refreshed, the random byte presented, the output empty (R34, R36, R82). -/
def State.sample (keysIn : Keys) (rnd : Byte) (s : State) : State :=
  { s with keys := keysIn, rnd := rnd, events := [] }

/-- The end of a Cycle: `KPREV <- KEYS` (R35, R82). -/
def State.endCycle (s : State) : State := { s with kprev := s.keys }

/-- One poll of the key wait (R183). -/
def State.pollKey (x : Reg) (s : State) : State :=
  match newKey? s.keys s.kprev with
  | some k => { (s.setV x (BitVec.ofNat 8 k.val)).advance with mode := .running }
  | none => s

/-! ## Timers (R213, R215) -/

/-- One decrement, floored at 0 (R213). -/
def decay (t : Byte) : Byte := if t = 0 then 0 else t - 1

/-- `Tick`: both timers step once, nothing else changes (R213). -/
def State.tick (s : State) : State := { s with dt := decay s.dt, st := decay s.st }

/-- `n` decrements of a timer. -/
def decayBy (n : Nat) (t : Byte) : Byte := BitVec.ofNat 8 (t.toNat - n)

/-- `n` Ticks in a row (R215); one Tick per unit of `n` (`State.ticks_succ` in Laws). -/
def State.ticks (n : Nat) (s : State) : State :=
  { s with dt := decayBy n s.dt, st := decayBy n s.st }

/-! ## Reset (R40, R240) -/

/-- `Reset(image, config)`: every item of state at its reset value, MEM the image, CONFIG the argument. -/
def State.resetWith (image : Image) (config : Config) : State :=
  { State.reset with mem := Memory.ofImage image, config := config }

end Sys2Proof.Machine
end

