-- ==== Sys2Proof/Machine/Alu.lean ====
section
/-! DEFINITION. Register load, arithmetic, logic, shift and random: spec/41_load_alu_random.md R120 to R133.
None faults; each ends with `PC <- pc0 + 2`; both sources are read before anything is written (R132). -/

namespace Sys2Proof.Machine

open Host (Outcome)

/-- Write V[X] and advance: the shape of every load and logic instruction. -/
def State.loadV (s : State) (x : Reg) (b : Byte) : Outcome State Fault Refusal :=
  .next (s.setV x b).advance

/-- Write V[X], then VF, and advance: the shape of the five flag-setting instructions (R132). -/
def State.loadVAndFlag (s : State) (x : Reg) (result flag : Byte) : Outcome State Fault Refusal :=
  .next (s.setResultAndFlag x result flag).advance

/-- `6XNN` (R120). -/
def execLdVxNn (x : Reg) (nn : Byte) (s : State) : Outcome State Fault Refusal := s.loadV x nn

/-- `7XNN` (R121): no flag. -/
def execAddVxNn (x : Reg) (nn : Byte) (s : State) : Outcome State Fault Refusal :=
  s.loadV x (s.getV x + nn)

/-- `8XY0` (R122). -/
def execLdVxVy (x y : Reg) (s : State) : Outcome State Fault Refusal := s.loadV x (s.getV y)

/-- `8XY1` (R123). -/
def execOrVxVy (x y : Reg) (s : State) : Outcome State Fault Refusal :=
  s.loadV x (s.getV x ||| s.getV y)

/-- `8XY2` (R124). -/
def execAndVxVy (x y : Reg) (s : State) : Outcome State Fault Refusal :=
  s.loadV x (s.getV x &&& s.getV y)

/-- `8XY3` (R125). -/
def execXorVxVy (x y : Reg) (s : State) : Outcome State Fault Refusal :=
  s.loadV x (s.getV x ^^^ s.getV y)

/-- `8XY4` (R126). -/
def execAddVxVy (x y : Reg) (s : State) : Outcome State Fault Refusal :=
  s.loadVAndFlag x (s.getV x + s.getV y) (carryFlag (s.getV x) (s.getV y))

/-- `8XY5` (R127). -/
def execSubVxVy (x y : Reg) (s : State) : Outcome State Fault Refusal :=
  s.loadVAndFlag x (s.getV x - s.getV y) (noBorrowFlag (s.getV x) (s.getV y))

/-- `8XY6` (R128). -/
def execShrVxVy (x y : Reg) (s : State) : Outcome State Fault Refusal :=
  s.loadVAndFlag x (s.shiftSource x y >>> 1) (shiftedOutRight (s.shiftSource x y))

/-- `8XY7` (R129). -/
def execSubnVxVy (x y : Reg) (s : State) : Outcome State Fault Refusal :=
  s.loadVAndFlag x (s.getV y - s.getV x) (noBorrowFlag (s.getV y) (s.getV x))

/-- `8XYE` (R130). -/
def execShlVxVy (x y : Reg) (s : State) : Outcome State Fault Refusal :=
  s.loadVAndFlag x (s.shiftSource x y <<< 1) (shiftedOutLeft (s.shiftSource x y))

/-- `CXNN` (R131): the random byte of this Cycle, masked. -/
def execRndVxNn (x : Reg) (nn : Byte) (s : State) : Outcome State Fault Refusal :=
  s.loadV x (s.rnd &&& nn)

end Sys2Proof.Machine
end

