-- ==== Sys2Proof/Machine/ControlFlow.lean ====
section
/-! DEFINITION. Control transfer and no-operation: spec/40_control_flow.md R100 to R109. -/

namespace Sys2Proof.Machine

open Host (Outcome)

/-- `00EE` (R101): `StackUnderflow` on an empty stack, else PC is the popped value as it stands. -/
def execRet (s : State) : Outcome State Fault Refusal :=
  match s.pop with
  | none => .next (s.raise .stackUnderflow 0)
  | some (a, t) => .next (t.jumpTo a)

/-- `1NNN` (R102). -/
def execJp (nnn : BitVec 12) (s : State) : Outcome State Fault Refusal :=
  .next (s.jumpTo (addressOf nnn))

/-- `2NNN` (R103): `StackOverflow` when all 16 entries are in use, else push pc0 + 2 and jump. -/
def execCall (nnn : BitVec 12) (s : State) : Outcome State Fault Refusal :=
  match s.push (s.pc + 2) with
  | none => .next (s.raise .stackOverflow 0)
  | some t => .next (t.jumpTo (addressOf nnn))

/-- `3XNN` (R104). -/
def execSeVxNn (x : Reg) (nn : Byte) (s : State) : Outcome State Fault Refusal :=
  .next (s.skipIf (s.getV x == nn))

/-- `4XNN` (R105). -/
def execSneVxNn (x : Reg) (nn : Byte) (s : State) : Outcome State Fault Refusal :=
  .next (s.skipIf (s.getV x != nn))

/-- `5XY0` (R106). -/
def execSeVxVy (x y : Reg) (s : State) : Outcome State Fault Refusal :=
  .next (s.skipIf (s.getV x == s.getV y))

/-- `9XY0` (R107). -/
def execSneVxVy (x y : Reg) (s : State) : Outcome State Fault Refusal :=
  .next (s.skipIf (s.getV x != s.getV y))

/-- `BNNN` (R108): the sum is kept to 16 bits, not to 12. -/
def execJpV0Nnn (nnn : BitVec 12) (s : State) : Outcome State Fault Refusal :=
  .next (s.jumpTo (BitVec.ofNat 16 (nnn.toNat + (s.getV (s.jumpRegister nnn)).toNat)))

/-- The one effect of every undefined word: `PC <- pc0 + 2` (R100). -/
def noOperation (s : State) : Outcome State Fault Refusal := .next s.advance

/-- Family 0 fall-back (R100 (a)). -/
def execNop0 (_low : BitVec 12) (s : State) : Outcome State Fault Refusal := noOperation s
/-- Family 5 fall-back (R100 (b)). -/
def execNop5 (_low : BitVec 12) (s : State) : Outcome State Fault Refusal := noOperation s
/-- Family 8 fall-back (R100 (c)). -/
def execNop8 (_low : BitVec 12) (s : State) : Outcome State Fault Refusal := noOperation s
/-- Family 9 fall-back (R100 (b)). -/
def execNop9 (_low : BitVec 12) (s : State) : Outcome State Fault Refusal := noOperation s
/-- Family E fall-back (R100). -/
def execNopE (_low : BitVec 12) (s : State) : Outcome State Fault Refusal := noOperation s
/-- Family F fall-back (R100). -/
def execNopF (_low : BitVec 12) (s : State) : Outcome State Fault Refusal := noOperation s

end Sys2Proof.Machine
end

