-- ==== Sys2Proof/Machine/DisplayOps.lean ====
section
/-! DEFINITION. Display: spec/43_display.md R160 to R167. -/

namespace Sys2Proof.Machine

open Host (Outcome)

/-- `00E0` (R160). -/
def execCls (s : State) : Outcome State Fault Refusal :=
  .next (({ s with disp := Display.blank }).emit [.fullClear]).advance

/-- The draw of `DXYN` once its sprite bytes are read (R161): the position is read before VF is written. -/
def State.draw (s : State) (x y : Reg) (sprite : List Byte) : State :=
  let b := blit s.disp (spriteTargets s.config.edgeMode (s.getV x).toNat (s.getV y).toNat sprite)
  (({ s with disp := b.disp }).emit b.events).setV regF (flagByte b.collision)

/-- `DXYN` (R161): all N bytes are in range before any cell changes; N = 0 reads none. -/
def execDrwVxVyN (x y : Reg) (n : BitVec 4) (s : State) : Outcome State Fault Refusal :=
  match memRead s.mem s.i.toNat n.toNat with
  | .error bad => .next (s.raise .dataOutOfRange bad)
  | .ok sprite => .next (s.draw x y sprite).advance

end Sys2Proof.Machine
end

