-- ==== Sys2Proof/Machine/IndexMemory.lean ====
section
/-! DEFINITION. Index register and memory: spec/42_index_memory.md R140 to R146. -/

namespace Sys2Proof.Machine

open Host (Outcome)

/-- `ANNN` (R140). -/
def execLdINnn (nnn : BitVec 12) (s : State) : Outcome State Fault Refusal :=
  .next ({ s with i := addressOf nnn }).advance

/-- `FX1E` (R141): modulo 65536, no flag. -/
def execAddIVx (x : Reg) (s : State) : Outcome State Fault Refusal :=
  .next ({ s with i := s.i + (s.getV x).setWidth 16 }).advance

/-- `FX29` (R142). -/
def execLdFVx (x : Reg) (s : State) : Outcome State Fault Refusal :=
  .next ({ s with i := glyphAddress s.config (lowNibble (s.getV x)) }).advance

/-- `FX33` (R143). -/
def execLdBVx (x : Reg) (s : State) : Outcome State Fault Refusal :=
  match memWrite s.mem s.i.toNat (decimalDigits (s.getV x)) with
  | .error bad => .next (s.raise .dataOutOfRange bad)
  | .ok m => .next ({ s with mem := m }).advance

/-- `FX55` (R144). -/
def execLdMemVx (x : Reg) (s : State) : Outcome State Fault Refusal :=
  match memWrite s.mem s.i.toNat (s.lowRegisters x) with
  | .error bad => .next (s.raise .dataOutOfRange bad)
  | .ok m => .next ((State.postIncrement { s with mem := m } x).advance)

/-- `FX65` (R145). -/
def execLdVxMem (x : Reg) (s : State) : Outcome State Fault Refusal :=
  match memRead s.mem s.i.toNat (x.val + 1) with
  | .error bad => .next (s.raise .dataOutOfRange bad)
  | .ok bytes => .next (((s.setLowRegisters bytes).postIncrement x).advance)

end Sys2Proof.Machine
end

