-- ==== Sys2Proof/Machine/KeysTimers.lean ====
section
/-! DEFINITION. Keys and timers: spec/44_keys_timers.md R180 to R187. -/

namespace Sys2Proof.Machine

open Host (Outcome)

/-- `EX9E` (R180): the level of the key in this Cycle's sample. -/
def execSkpVx (x : Reg) (s : State) : Outcome State Fault Refusal :=
  .next (s.skipIf (s.keys[lowNibble (s.getV x)]))

/-- `EXA1` (R181). -/
def execSknpVx (x : Reg) (s : State) : Outcome State Fault Refusal :=
  .next (s.skipIf (!s.keys[lowNibble (s.getV x)]))

/-- `FX07` (R184). -/
def execLdVxDt (x : Reg) (s : State) : Outcome State Fault Refusal :=
  .next (s.setV x s.dt).advance

/-- `FX0A` (R182): the wait starts, PC stays at the `FX0A`. -/
def execLdVxK (x : Reg) (s : State) : Outcome State Fault Refusal :=
  .next { s with mode := .awaitingKey x }

/-- `FX15` (R185). -/
def execLdDtVx (x : Reg) (s : State) : Outcome State Fault Refusal :=
  .next ({ s with dt := s.getV x }).advance

/-- `FX18` (R186). -/
def execLdStVx (x : Reg) (s : State) : Outcome State Fault Refusal :=
  .next ({ s with st := s.getV x }).advance

end Sys2Proof.Machine
end

