-- ==== Sys2Proof/Machine/Cycle.lean ====
section
/-! DEFINITION. The transitions of the core (spec/00_scope.md R6): the Cycle (spec/30_encoding.md R82), the
Tick and the Reset as the host issues them, and the load of one instruction where the next fetch reads. -/

namespace Sys2Proof.Machine

open Host (Outcome)

/-- The instruction fetch (R52, R58, R203): the word at PC, or the lowest out-of-range address of the two. -/
def fetch (s : State) : Except Nat Word :=
  match memRead s.mem s.pc.toNat 2 with
  | .error bad => .error bad
  | .ok bytes => .ok (wordOfBytes (bytes[0]?.getD 0) (bytes[1]?.getD 0))

/-- A Cycle in mode `Running`: fetch, decode, execute (R82); the fetch may fault (R203). -/
def runOne (s : State) : Outcome State Fault Refusal :=
  match fetch s with
  | .error bad => .next (s.raise .fetchOutOfRange bad)
  | .ok op => exec (decode op) s

/-- `step()` of the document: one instruction, one poll of the key wait, or nothing when halted (R82,
R183, R208). -/
def engine (s : State) : Outcome State Fault Refusal :=
  match s.mode with
  | .running => runOne s
  | .awaitingKey x => .next (s.pollKey x)
  | .halted _ _ _ => .next s

/-- `Cycle(keys_in, rnd)` (R82): refresh the latch, run the engine, keep the sample. -/
def cycle (keysIn : Keys) (rnd : Byte) (s : State) : Outcome State Fault Refusal :=
  match engine (s.sample keysIn rnd) with
  | .next t => .next t.endCycle
  | .fault f => .fault f
  | .refused r => .refused r

/-- What the core does when the host's script is empty: a free number of Ticks, then a Cycle on a free key
vector and a free random byte (R36, R215, R223; notes/assumptions/2.md). -/
def unscriptedCycle (s : State) : Outcome State Fault Refusal :=
  cycle (Config.freeKeys s.unscripted) (Config.freeRandom s.unscripted)
    { s.ticks (Config.freeTicks s.unscripted) with unscripted := s.unscripted + 1 }

/-- One transition of the core (R6): the host's next move. Reset puts every item of the core's state at its
reset value and leaves the host's own script as it is. -/
def transition (s : State) : Outcome State Fault Refusal :=
  match s.script with
  | [] => unscriptedCycle s
  | .cycle keysIn rnd :: rest => cycle keysIn rnd { s with script := rest }
  | .tick :: rest => .next (State.tick { s with script := rest })
  | .reset image config :: rest =>
    .next { State.resetWith image config with script := rest, unscripted := s.unscripted }

/-- The host's next move is a Cycle: the script as it is when it already starts with one, else with one on
the current key levels and random byte put before it. -/
def State.cycleNext (s : State) : List HostMove :=
  match s.script with
  | .cycle _ _ :: _ => s.script
  | [] => [.cycle s.keys s.rnd]
  | .tick :: _ => .cycle s.keys s.rnd :: s.script
  | .reset _ _ :: _ => .cycle s.keys s.rnd :: s.script

/-- Where the next instruction is fetched from: PC when a fetch there succeeds, else the entry point. -/
def State.fetchAddress (s : State) : Word := if s.pc.toNat + 1 < memSize then s.pc else progBase

/-- Put an instruction word where the next fetch reads, and make the next transition the Cycle that
fetches it: the word's bytes high byte first (R52), mode `Running`, a Cycle as the host's next move. -/
def State.loadNext (s : State) (op : Word) : State :=
  { s with
    mem := (s.mem.set s.fetchAddress.toNat (highByte op)).set (s.fetchAddress.toNat + 1) (lowByte op)
    pc := s.fetchAddress
    mode := .running
    script := s.cycleNext }

end Sys2Proof.Machine
end

