-- ==== Sys2Proof/Machine/Step.lean ====
section
/-! DEFINITION. One step of the machine: one transition of the core. -/

namespace Sys2Proof.Machine

/-- One step: the host's next transition (spec/00_scope.md R6). -/
def step (s : State) : Host.Outcome State Fault Refusal := Sys2Proof.Machine.transition s

/-- The state with a table word placed where the next step fetches; nothing else changes but what that
fetch needs (`State.loadNext`). -/
def State.withFetchWord (s : State) (nbits w : Nat) : State := s.loadNext (Sys2Proof.tableWord nbits w)

end Sys2Proof.Machine
end

