-- ==== Sys2Proof/Safety.lean ====
section
/-! DEFINITION. What claims are stated in terms of: halted and ended states, the sound output, and the
invariant of the core between two transitions. -/

namespace Sys2Proof.Machine

/-- MODE is `Halted`: a run that reaches it has gone wrong (spec/60_exceptions.md R224). -/
def State.isHalted (s : State) : Prop := ∃ cause pc addr, s.mode = .halted cause pc addr

/-- The host's audible output: ST is not 0 (R216). -/
def State.soundOn (s : State) : Prop := s.st ≠ 0

/-- The successful end of a run: in mode `Running`, the instruction at PC is a `1NNN` jump to itself
(spec/70_reset_and_hazards.md R252). -/
def State.ended (s : State) : Prop := s.mode = .running ∧ fetch s = .ok (0x1000 ||| s.pc)

/-- What a `Halted` record says agrees with the state the fault left (spec/60_exceptions.md R200, R205). -/
def State.haltRecordOk (s : State) : FaultCause → Word → Nat → Prop
  | .stackOverflow, pc, addr => pc = s.pc ∧ addr = 0 ∧ s.sp.val = 16 ∧ pc.toNat + 1 < memSize
  | .stackUnderflow, pc, addr => pc = s.pc ∧ addr = 0 ∧ s.sp.val = 0 ∧ pc.toNat + 1 < memSize
  | .fetchOutOfRange, pc, addr => pc = s.pc ∧ addr = max pc.toNat memSize ∧ memSize ≤ pc.toNat + 1
  | .dataOutOfRange, pc, addr => pc = s.pc ∧ addr = max s.i.toNat memSize ∧ pc.toNat + 1 < memSize

/-- What MODE says agrees with the rest of the state (R31, R182, R200). -/
def State.modeOk (s : State) : Prop :=
  match s.mode with
  | .running => True
  | .awaitingKey _ => s.pc.toNat + 1 < memSize
  | .halted cause pc addr => s.haltRecordOk cause pc addr

/-- The invariant of the core between two transitions: MEM is canonical and inside the address space (R37,
R50); PC and every stack entry stay under the bounds of R24; MODE agrees with the state; KPREV is the last
sample of KEYS (R35). The canonical form is the model's (notes/assumptions/1.md), the agreements are DEDUCED
(notes/assumptions/25.md). -/
structure State.Inv (s : State) : Prop where
  memWf : s.mem.wf
  pcBound : s.pc.toNat ≤ 0x10FE
  stackBound : ∀ k : Fin 16, (s.stack[k]).toNat ≤ 0x1000
  modeAgrees : s.modeOk
  keysAgree : s.kprev = s.keys

/-- The sprite of `DXYN` with operands x, y, n in state s has an on-grid 1-pixel that lands on cell (r, c)
(spec/43_display.md R161, R162). -/
def State.spriteHits (s : State) (x y : Reg) (n : BitVec 4) (r : Fin 32) (c : Fin 64) : Prop :=
  ∃ row col : Nat, row < n.toNat ∧ col < 8 ∧
    (s.mem.get (s.i.toNat + row)).getLsbD (7 - col) = true ∧
    target s.config.edgeMode ((s.getV x).toNat + col) ((s.getV y).toNat + row) = some (r, c)

/-- The general registers an instruction's rule may write: its destination X, VF for the six flag writers,
V0 to VX for `FX65` (spec/10_state.md R21). `FX0A` writes VX only when the wait ends (R183). -/
def writesV : Instr → Reg → Bool
  | .ldVxNn x _, r | .addVxNn x _, r | .ldVxVy x _, r | .orVxVy x _, r | .andVxVy x _, r
  | .xorVxVy x _, r | .rndVxNn x _, r | .ldVxDt x, r => r == x
  | .addVxVy x _, r | .subVxVy x _, r | .shrVxVy x _, r | .subnVxVy x _, r | .shlVxVy x _, r =>
    r == x || r == regF
  | .drwVxVyN _ _ _, r => r == regF
  | .ldVxMem x, r => decide (r ≤ x)
  | .cls, _ | .ret, _ | .jp _, _ | .call _, _ | .seVxNn _ _, _ | .sneVxNn _ _, _ | .seVxVy _ _, _
  | .sneVxVy _ _, _ | .ldINnn _, _ | .jpV0Nnn _, _ | .skpVx _, _ | .sknpVx _, _ | .ldVxK _, _
  | .ldDtVx _, _ | .ldStVx _, _ | .addIVx _, _ | .ldFVx _, _ | .ldBVx _, _ | .ldMemVx _, _
  | .nop0 _, _ | .nop5 _, _ | .nop8 _, _ | .nop9 _, _ | .nopE _, _ | .nopF _, _ => false

/-- The six instructions that write VF as a side effect (R21). -/
def setsFlag : Instr → Bool
  | .addVxVy _ _ | .subVxVy _ _ | .shrVxVy _ _ | .subnVxVy _ _ | .shlVxVy _ _
  | .drwVxVyN _ _ _ => true
  | .cls | .ret | .jp _ | .call _ | .seVxNn _ _ | .sneVxNn _ _ | .seVxVy _ _ | .ldVxNn _ _
  | .addVxNn _ _ | .ldVxVy _ _ | .orVxVy _ _ | .andVxVy _ _ | .xorVxVy _ _ | .sneVxVy _ _
  | .ldINnn _ | .jpV0Nnn _ | .rndVxNn _ _ | .skpVx _ | .sknpVx _ | .ldVxDt _ | .ldVxK _
  | .ldDtVx _ | .ldStVx _ | .addIVx _ | .ldFVx _ | .ldBVx _ | .ldMemVx _ | .ldVxMem _
  | .nop0 _ | .nop5 _ | .nop8 _ | .nop9 _ | .nopE _ | .nopF _ => false

/-- The complete list of instructions that can leave PC at something other than pc0 + 2 without faulting
(spec/40_control_flow.md R109). -/
def transfersControl : Instr → Bool
  | .ret | .jp _ | .call _ | .jpV0Nnn _ | .seVxNn _ _ | .sneVxNn _ _ | .seVxVy _ _ | .sneVxVy _ _
  | .skpVx _ | .sknpVx _ | .ldVxK _ => true
  | .cls | .ldVxNn _ _ | .addVxNn _ _ | .ldVxVy _ _ | .orVxVy _ _ | .andVxVy _ _ | .xorVxVy _ _
  | .addVxVy _ _ | .subVxVy _ _ | .shrVxVy _ _ | .subnVxVy _ _ | .shlVxVy _ _ | .ldINnn _
  | .rndVxNn _ _ | .drwVxVyN _ _ _ | .ldVxDt _ | .ldDtVx _ | .ldStVx _ | .addIVx _ | .ldFVx _
  | .ldBVx _ | .ldMemVx _ | .ldVxMem _
  | .nop0 _ | .nop5 _ | .nop8 _ | .nop9 _ | .nopE _ | .nopF _ => false

end Sys2Proof.Machine
end

