-- ==== Sys2Proof/Certificates/Slice0/Obligations.lean ====
section
/-! DEFINITION. The statements for the provers. Each `exec … s = .next { s with … }` is at once a result, a
completion and a frame: every item of state not named in the braces is that of `s`, memory, the other
registers, VF and the model's own fields included. Marks of the spec that a statement rests on (D<n> of
spec/92_eei_decisions.md, GK<n> of spec/93_implementation_defined.md) and log entries of the model
(notes/assumptions/<n>.md) are named in its docstring; such statements have basis 'derived'. -/

open Sys2Proof Sys2Proof.Machine

/-! ## Encoding -/

/-- Every well-formed instruction's two bytes decode to it, whatever follows (spec/30_encoding.md R70, R72,
R77; the positions of the discriminants are D9 and the low nibbles of family 8 GK2, notes/assumptions/11.md).
-/
def Obligations.DecodeInvertsEncode : Prop :=
  ∀ (i : Instr) (rest : List Byte), i.wellFormed = true →
    decodeBytes (encodeBytes i ++ rest) = .ok (i, rest)

/-- Every one of the 65536 words decodes to a well-formed instruction whose encoding is that word: decoding is
total and drops no bit (R76, R86; D9, GK2, notes/assumptions/11.md). -/
def Obligations.EncodeInvertsDecode : Prop :=
  ∀ op : Word, (decode op).wellFormed = true ∧ encode (decode op) = op

/-- A word is the instruction of a row of R77 exactly when `op & mask = match` (the rows of family 8 are GK2,
the positions of the discriminants D9: notes/assumptions/11.md). -/
def Obligations.DecodeFollowsOpcodeMap : Prop :=
  (∀ (op : Word) (m : Word × Word), (decode op).maskMatch? = some m →
    m ∈ opcodeMap ∧ op &&& m.1 = m.2) ∧
  (∀ (op : Word) (m : Word × Word), m ∈ opcodeMap → op &&& m.1 = m.2 →
    (decode op).maskMatch? = some m)

/-- Words of spec/95_test_vectors.md section 2.7, one or more of each of the 16 families, decode to the
instructions they stand for (sanity; D9 and GK2, notes/assumptions/11.md). -/
def Obligations.SampleWordsDecode : Prop :=
  decode 0x00E0 = .cls ∧ decode 0x00EE = .ret ∧ decode 0x01E0 = .nop0 0x1E0 ∧
  decode 0x1234 = .jp 0x234 ∧ decode 0x2FFF = .call 0xFFF ∧ decode 0x3A7F = .seVxNn 10 0x7F ∧
  decode 0x4B80 = .sneVxNn 11 0x80 ∧ decode 0x5CD0 = .seVxVy 12 13 ∧ decode 0x5CD1 = .nop5 0xCD1 ∧
  decode 0x6E00 = .ldVxNn 14 0x00 ∧ decode 0x7FFF = .addVxNn 15 0xFF ∧
  decode 0x8AB6 = .shrVxVy 10 11 ∧ decode 0x8ABE = .shlVxVy 10 11 ∧ decode 0x8ABF = .nop8 0xABF ∧
  decode 0x9120 = .sneVxVy 1 2 ∧ decode 0x9121 = .nop9 0x121 ∧ decode 0xA000 = .ldINnn 0x000 ∧
  decode 0xB2F0 = .jpV0Nnn 0x2F0 ∧ decode 0xC5F0 = .rndVxNn 5 0xF0 ∧ decode 0xD12F = .drwVxVyN 1 2 15 ∧
  decode 0xEF9E = .skpVx 15 ∧ decode 0xE0A0 = .nopE 0x0A0 ∧ decode 0xF065 = .ldVxMem 0 ∧
  decode 0xF085 = .nopF 0x085

/-! ## The Cycle, the Tick and the Reset -/

/-- A scripted Cycle in mode `Running` whose two bytes at PC decode to i is exec of i at the state with KEYS
refreshed, the random byte presented and the output empty, followed by `KPREV <- KEYS` (R52, R82; the script
is the model's own, notes/assumptions/2.md). -/
def Obligations.StepRunsTheDecodedInstruction : Prop :=
  ∀ (s : State) (i : Instr) (keysIn : Keys) (rnd : Byte) (rest : List HostMove),
    s.mode = .running → s.pc.toNat + 1 < 0x1000 → s.script = .cycle keysIn rnd :: rest →
    decodeBytes [s.mem.get s.pc.toNat, s.mem.get (s.pc.toNat + 1)] = .ok (i, []) →
    i.wellFormed = true →
    ∃ t, exec i { s with script := rest, keys := keysIn, rnd := rnd, events := [] } = .next t ∧
      step s = .next { t with kprev := keysIn }

/-- With nothing scripted a step is a free number of Ticks and then such a Cycle on a free key vector and a
free random byte (R36, R215, R223; the model's choice, notes/assumptions/2.md; the values are unknown). -/
def Obligations.StepRunsTheDecodedInstructionUnscripted : Prop :=
  ∀ (s : State) (i : Instr), s.mode = .running → s.pc.toNat + 1 < 0x1000 → s.script = [] →
    decodeBytes [s.mem.get s.pc.toNat, s.mem.get (s.pc.toNat + 1)] = .ok (i, []) →
    i.wellFormed = true →
    ∃ (t : State) (d e : Byte),
      d.toNat = s.dt.toNat - Config.freeTicks s.unscripted ∧
      e.toNat = s.st.toNat - Config.freeTicks s.unscripted ∧
      exec i { s with dt := d, st := e, unscripted := s.unscripted + 1,
                      keys := Config.freeKeys s.unscripted,
                      rnd := Config.freeRandom s.unscripted, events := [] } = .next t ∧
      step s = .next { t with kprev := Config.freeKeys s.unscripted }

/-- With nothing scripted, in EVERY mode, a step is a free number of Ticks and then exactly the step of a
scripted Cycle on a free key vector and a free random byte, so that the statements about a scripted Cycle (an
instruction, a fetch fault, a poll of the key wait, `Halted`) hold of it too (R36, R82, R215, R223; the
model's choice, notes/assumptions/2.md; the values are unknown). -/
def Obligations.UnscriptedStepIsTicksThenACycle : Prop :=
  ∀ s : State, s.script = [] →
    ∃ d e : Byte,
      d.toNat = s.dt.toNat - Config.freeTicks s.unscripted ∧
      e.toNat = s.st.toNat - Config.freeTicks s.unscripted ∧
      step s = step { s with
        dt := d, st := e, unscripted := s.unscripted + 1,
        script := [.cycle (Config.freeKeys s.unscripted) (Config.freeRandom s.unscripted)] }

/-- A Cycle in mode `Running` with PC ≥ 0xFFF takes `FetchOutOfRange`: the record holds PC and the lowest
out-of-range address of the two fetched, and nothing else changes but the key samples (R200, R203, R206;
decisions D3, D4, D5, notes/assumptions/9.md; a next state is notes/assumptions/7.md; a step with nothing
scripted is UnscriptedStepIsTicksThenACycle). -/
def Obligations.FetchOutOfRangeHalts : Prop :=
  ∀ (s : State) (keysIn : Keys) (rnd : Byte) (rest : List HostMove),
    s.mode = .running → 0xFFF ≤ s.pc.toNat → s.script = .cycle keysIn rnd :: rest →
    step s = .next { s with
      script := rest, keys := keysIn, kprev := keysIn, rnd := rnd, events := [],
      mode := .halted .fetchOutOfRange s.pc (if s.pc.toNat ≤ 0x1000 then 0x1000 else s.pc.toNat) }

/-- The key wait (R183; decision D18, GK7, notes/assumptions/17.md): a Cycle in which some key goes from
released to pressed delivers the lowest such key, advances PC past the `FX0A` and returns to `Running`,
executing nothing; a Cycle with no such key changes nothing but the key samples. -/
def Obligations.KeyWaitEndsOnTheLowestNewKey : Prop :=
  ∀ (s : State) (x : Reg) (keysIn : Keys) (rnd : Byte) (rest : List HostMove),
    s.mode = .awaitingKey x → s.script = .cycle keysIn rnd :: rest →
    (∀ k : Fin 16, keysIn[k] = true → s.kprev[k] = false →
      (∀ j : Fin 16, j < k → ¬(keysIn[j] = true ∧ s.kprev[j] = false)) →
      step s = .next { s with
        script := rest, keys := keysIn, kprev := keysIn, rnd := rnd, events := [],
        v := s.v.set x (BitVec.ofNat 8 k.val), pc := s.pc + 2, mode := .running }) ∧
    ((∀ k : Fin 16, ¬(keysIn[k] = true ∧ s.kprev[k] = false)) →
      step s = .next { s with
        script := rest, keys := keysIn, kprev := keysIn, rnd := rnd, events := [] })

/-- `Halted` is absorbing (R208; decision D21, notes/assumptions/19.md): a Cycle refreshes the key samples and
emits nothing, a Tick decrements the timers, and everything else, the record included, stays. -/
def Obligations.HaltedIsAbsorbing : Prop :=
  ∀ (s : State) (cause : FaultCause) (pc : Word) (addr : Nat) (rest : List HostMove),
    s.mode = .halted cause pc addr →
    (∀ (keysIn : Keys) (rnd : Byte), s.script = .cycle keysIn rnd :: rest →
      step s = .next { s with
        script := rest, keys := keysIn, kprev := keysIn, rnd := rnd, events := [] }) ∧
    (s.script = .tick :: rest →
      ∃ d e : Byte, d.toNat = s.dt.toNat - 1 ∧ e.toNat = s.st.toNat - 1 ∧
        step s = .next { s with script := rest, dt := d, st := e })

/-- `Tick` (R213), in every MODE: both timers go down by one, floored at 0, and nothing else changes. -/
def Obligations.TickDecrementsBothTimers : Prop :=
  ∀ (s : State) (rest : List HostMove), s.script = .tick :: rest →
    ∃ d e : Byte,
      d.toNat = (if 0 < s.dt.toNat then s.dt.toNat - 1 else 0) ∧
      e.toNat = (if 0 < s.st.toNat then s.st.toNat - 1 else 0) ∧
      step s = .next { s with script := rest, dt := d, st := e }

/-- `Reset(image, config)` from any state, `Halted` included: every item at the value of R40, MEM the image
byte for byte, CONFIG the argument (R40, R240, R241; all values but PC and the empty stack are decision D19,
notes/assumptions/3.md, and that empty is SP = 0 is D2, notes/assumptions/8.md). The four last fields are the
model's own: `rnd` and `events` reset to 0 and empty, the rest of the script and the count of unscripted
Cycles kept, which is the model's choice (notes/assumptions/24.md). -/
def Obligations.ResetRestoresEveryItem : Prop :=
  ∀ (s : State) (image : Image) (config : Config) (rest : List HostMove),
    s.script = .reset image config :: rest →
    ∃ m : Memory, (∀ a : Fin 4096, m.get a.val = image[a]) ∧
      step s = .next
        { v := Vector.replicate 16 0, i := 0, pc := 0x200, sp := 0, stack := Vector.replicate 16 0,
          dt := 0, st := 0, disp := Vector.replicate 32 (Vector.replicate 64 false), mem := m,
          keys := Vector.replicate 16 false, kprev := Vector.replicate 16 false, mode := .running,
          config := config, rnd := 0, events := [], script := rest, unscripted := s.unscripted }

/-- Every state has a next state, whatever the word at PC, the registers and the mode (R76, R206, R208, R221).
This does not say that the engine goes on: a fault stops it (R206), and that the model shows the stopped
engine as a next state in mode `Halted`, never as an outcome of kind fault, is the model's choice
(notes/assumptions/7.md), as are the unscripted inputs (notes/assumptions/2.md). -/
def Obligations.EveryStepAnswersNext : Prop :=
  ∀ s : State, ∃ t, step s = .next t

/-- From the end of a run (R252; decision D34, notes/assumptions/23.md) a Cycle changes only the key samples,
emits nothing, and the run stays ended. -/
def Obligations.EndedRunStaysEnded : Prop :=
  ∀ (s : State) (keysIn : Keys) (rnd : Byte) (rest : List HostMove),
    s.ended → s.script = .cycle keysIn rnd :: rest →
    ∃ t, step s = .next t ∧ t.ended ∧
      t = { s with script := rest, keys := keysIn, kprev := keysIn, rnd := rnd, events := [] }

/-! ## Invariants -/

/-- Every step keeps the invariant `State.Inv`: PC and the stack under the bounds of R24; MEM inside the
address space (R37) and in the canonical form that is the model's choice (notes/assumptions/1.md); and the
agreements the model deduces (notes/assumptions/25.md) from R82 (KPREV is the last sample of KEYS), R182 (the
waiting PC is that of a fetched `FX0A`; decision D18) and R200 with R205 (the `Halted` record tells the state
the fault left; decisions D3, D4, D5, notes/assumptions/9.md). -/
def Obligations.StepKeepsInvariant : Prop :=
  ∀ s t : State, s.Inv → step s = .next t → t.Inv

/-- The state after reset meets the invariant `State.Inv` (R40; D19, notes/assumptions/3.md): memory in the
canonical form (the model's choice, notes/assumptions/1.md) and the deduced agreements
(notes/assumptions/25.md). -/
def Obligations.ResetMeetsInvariant : Prop := State.reset.Inv

/-- Reset meets the invariant `State.Inv` for every image and every configuration (R40, R240; D19,
notes/assumptions/3.md): every image is held in the canonical form (the model's choice,
notes/assumptions/1.md), and the deduced agreements hold (notes/assumptions/25.md). -/
def Obligations.EveryResetMeetsInvariant : Prop :=
  ∀ (image : Image) (config : Config), (State.resetWith image config).Inv

/-! ## Whole-machine rules over all instructions -/

/-- Faults are precise and each is its own instruction's (R200, R205, R209; decisions D4, D5, D33,
notes/assumptions/9.md; a fault as a next state is notes/assumptions/7.md): an instruction that ends in
`Halted` has changed MODE and nothing else, PC being the recorded pc. -/
def Obligations.FaultsArePrecise : Prop :=
  ∀ (i : Instr) (s t : State), ¬s.isHalted → exec i s = .next t → t.isHalted →
    (t = { s with mode := .halted .stackOverflow s.pc 0 } ∧ (∃ nnn, i = .call nnn) ∧ s.sp = 16) ∨
    (t = { s with mode := .halted .stackUnderflow s.pc 0 } ∧ i = .ret ∧ s.sp = 0) ∨
    (t = { s with mode := .halted .dataOutOfRange s.pc (max s.i.toNat 0x1000) } ∧
      ((∃ x y n, i = .drwVxVyN x y n ∧ n ≠ 0) ∨ (∃ x, i = .ldBVx x) ∨ (∃ x, i = .ldMemVx x) ∨
        (∃ x, i = .ldVxMem x)))

/-- Only `00E0` and `DXYN` change DISP, and only `DXYN` reads it: any other instruction does on another
display exactly what it does on this one (R167). -/
def Obligations.OnlyDrawAndClearTouchTheDisplay : Prop :=
  (∀ (i : Instr) (s : State) (d : Display), i ≠ .cls → (∀ x y n, i ≠ .drwVxVyN x y n) →
    ∃ t, exec i s = .next t ∧ t.disp = s.disp ∧
      exec i { s with disp := d } = .next { t with disp := d }) ∧
  (∀ (s : State) (d : Display),
    ∃ t, exec .cls s = .next t ∧ exec .cls { s with disp := d } = .next t)

/-- MEM is written only by `FX33` and `FX55` and read as data only by `DXYN` and `FX65` (R37, R146): every
other instruction leaves every byte and does on another memory exactly what it does on this one; the two loads
leave every byte; the two stores, on another memory, do the same to everything but MEM, store the same bytes
at the same addresses (I to I + 2, I to I + X, when in range), and leave every other byte of that memory (the
canonical form is the model's, notes/assumptions/1.md; that a store out of range stores nothing is D4,
notes/assumptions/9.md). -/
def Obligations.OnlyFourInstructionsTouchMemory : Prop :=
  (∀ (i : Instr) (s t : State), (∀ x, i ≠ .ldBVx x) → (∀ x, i ≠ .ldMemVx x) → exec i s = .next t →
    t.mem = s.mem ∧ ∀ a, t.mem.get a = s.mem.get a) ∧
  (∀ (i : Instr) (s : State) (m : Memory), (∀ x, i ≠ .ldBVx x) → (∀ x, i ≠ .ldMemVx x) →
    (∀ x y n, i ≠ .drwVxVyN x y n) → (∀ x, i ≠ .ldVxMem x) →
    ∃ t, exec i s = .next t ∧ exec i { s with mem := m } = .next { t with mem := m }) ∧
  (∀ (i : Instr) (last : Nat) (x : Reg) (s : State) (m : Memory),
    (i = .ldBVx x ∧ last = s.i.toNat + 2) ∨ (i = .ldMemVx x ∧ last = s.i.toNat + x.val) →
    s.mem.wf → m.wf →
    ∃ (t : State) (m' : Memory), exec i s = .next t ∧
      exec i { s with mem := m } = .next { t with mem := m' } ∧
      (∀ a, last < 0x1000 → s.i.toNat ≤ a → a ≤ last → m'.get a = t.mem.get a) ∧
      (∀ a, 0x1000 ≤ last ∨ a < s.i.toNat ∨ last < a →
        m'.get a = m.get a ∧ t.mem.get a = s.mem.get a))

/-- No instruction writes the key latch, its previous sample, the configuration or the host's side of the
model (R32, R34, R35, R85, R243; the model's own fields are notes/assumptions/2.md). -/
def Obligations.NoInstructionWritesInputsOrConfig : Prop :=
  ∀ (i : Instr) (s t : State), exec i s = .next t →
    t.keys = s.keys ∧ t.kprev = s.kprev ∧ t.config = s.config ∧ t.rnd = s.rnd ∧
      t.script = s.script ∧ t.unscripted = s.unscripted

/-- State no instruction reads (R29, R31, R33, R35). The result does not depend on ST, on KPREV, on MODE or on
what was emitted before: `FX18` leaves the same state whatever ST was and every other instruction keeps
whatever ST was; an instruction in a given state either keeps MODE, whatever it is, or leaves the same state,
MODE included, whatever MODE was. -/
def Obligations.SoundTimerKprevModeAndEventsAreUnread : Prop :=
  ∀ (i : Instr) (s : State), ∃ t : State, exec i s = .next t ∧
    (∀ b : Byte,
      ((∀ x, i ≠ .ldStVx x) → exec i { s with st := b } = .next { t with st := b }) ∧
      ((∃ x, i = .ldStVx x) → exec i { s with st := b } = .next t)) ∧
    (∀ k : Keys, exec i { s with kprev := k } = .next { t with kprev := k }) ∧
    ((∀ m : Mode, exec i { s with mode := m } = .next { t with mode := m }) ∨
      (∀ m : Mode, exec i { s with mode := m } = .next t)) ∧
    (∃ es : List Event, t.events = s.events ++ es ∧
      ∀ old : List Event, exec i { s with events := old } = .next { t with events := old ++ es })

/-- State only the named instructions read (R26, R28, R34, R36): the call stack `2NNN` and `00EE`, DT `FX07`,
KEYS `EX9E` and `EXA1`, the random byte `CXNN`. Any other instruction keeps the item, whatever it is, but for
`FX15`, which leaves the same state whatever DT was (which timer opcode is which is GK5 and `EXA1` GK8,
notes/assumptions/22.md). -/
def Obligations.StackTimerKeysAndRandomHaveNamedReaders : Prop :=
  ∀ (i : Instr) (s : State), ∃ t : State, exec i s = .next t ∧
    ((∀ nnn, i ≠ .call nnn) → i ≠ .ret → ∀ (n : Fin 17) (k : Vector Word 16),
      exec i { s with sp := n, stack := k } = .next { t with sp := n, stack := k }) ∧
    ((∀ x, i ≠ .ldVxDt x) → ∀ b : Byte,
      ((∀ x, i ≠ .ldDtVx x) → exec i { s with dt := b } = .next { t with dt := b }) ∧
      ((∃ x, i = .ldDtVx x) → exec i { s with dt := b } = .next t)) ∧
    ((∀ x, i ≠ .skpVx x) → (∀ x, i ≠ .sknpVx x) → ∀ k : Keys,
      exec i { s with keys := k } = .next { t with keys := k }) ∧
    ((∀ x nn, i ≠ .rndVxNn x nn) → ∀ b : Byte,
      exec i { s with rnd := b } = .next { t with rnd := b })

/-- The register frame of every instruction: a general register that its rule does not name as written keeps
its value (R20, R21, R85). -/
def Obligations.RegistersNotNamedKeepTheirValue : Prop :=
  ∀ (i : Instr) (s t : State) (r : Reg), exec i s = .next t → writesV i r = false →
    t.getV r = s.getV r

/-- The six flag writers leave 0 or 1 in VF, also when VF is the destination X, unless they fault (R21; the
order that makes the flag survive is decision D10, notes/assumptions/12.md). -/
def Obligations.FlagWritersLeaveZeroOrOne : Prop :=
  ∀ (i : Instr) (s : State), setsFlag i = true → ¬s.isHalted →
    ∃ t, exec i s = .next t ∧ (¬t.isHalted → t.getV 15 = 0 ∨ t.getV 15 = 1)

/-- Where PC is left (R23, R109): a fault leaves it at pc0 (R205; decision D4, notes/assumptions/9.md); an
instruction outside the list of control transfers ends at pc0 + 2; a skip ends at pc0 + 2 or pc0 + 4. -/
def Obligations.ProgramCounterAdvancesByTwo : Prop :=
  ∀ (i : Instr) (s t : State), ¬s.isHalted → exec i s = .next t →
    (t.isHalted → t.pc = s.pc) ∧
    (¬t.isHalted → transfersControl i = false → t.pc = s.pc + 2) ∧
    ((∃ x nn, i = .seVxNn x nn ∨ i = .sneVxNn x nn) ∨ (∃ x y, i = .seVxVy x y ∨ i = .sneVxVy x y) ∨
      (∃ x, i = .skpVx x ∨ i = .sknpVx x) → t.pc = s.pc + 2 ∨ t.pc = s.pc + 4)

/-! ## Memory -/

/-- A read returns the last write to the same address and no other address changes; the canonical form is kept
(R60, R63; the form is the model's, notes/assumptions/1.md). -/
def Obligations.MemoryReadReturnsLastWrite : Prop :=
  ∀ (m : Memory) (a : Nat) (b : Byte), m.wf → a < 0x1000 →
    (m.set a b).wf ∧ (m.set a b).get a = b ∧ ∀ a', a' ≠ a → (m.set a b).get a' = m.get a'

/-- Memories in canonical form that read alike everywhere are the same data (the model's form,
notes/assumptions/1.md). -/
def Obligations.CanonicalMemoryIsExtensional : Prop :=
  ∀ m m' : Memory, m.wf → m'.wf → (∀ a, m.get a = m'.get a) → m = m'

/-! ## No-operation and control transfer -/

/-- Every word that matches no row of the opcode map is a no-operation: `PC <- pc0 + 2` and nothing else
(R100); so does each of the six fall-back constructors. -/
def Obligations.UndefinedWordsOnlyAdvance : Prop :=
  (∀ (op : Word) (s : State), (∀ m ∈ opcodeMap, op &&& m.1 ≠ m.2) →
    exec (decode op) s = .next { s with pc := s.pc + 2 }) ∧
  (∀ (low : BitVec 12) (s : State),
    exec (.nop0 low) s = .next { s with pc := s.pc + 2 } ∧
    exec (.nop5 low) s = .next { s with pc := s.pc + 2 } ∧
    exec (.nop8 low) s = .next { s with pc := s.pc + 2 } ∧
    exec (.nop9 low) s = .next { s with pc := s.pc + 2 } ∧
    exec (.nopE low) s = .next { s with pc := s.pc + 2 } ∧
    exec (.nopF low) s = .next { s with pc := s.pc + 2 })

/-- `1NNN` (R102): PC is NNN, below 0x200 or odd included, and nothing else changes. -/
def Obligations.JumpSetsPc : Prop :=
  ∀ (nnn : BitVec 12) (s : State), decode (0x1#4 ++ nnn) = .jp nnn ∧
    ∃ p : Word, p.toNat = nnn.toNat ∧ exec (.jp nnn) s = .next { s with pc := p }

/-- `00EE` (R101, R202): on an empty stack `StackUnderflow`, raised exactly then; else PC is the top entry as
it stands and SP goes down by one, the popped cell keeping its value (SP as a count is D2,
notes/assumptions/8.md). That the fault records (pc0, 0) and changes MODE alone is R200 and R205 (decisions
D5, D4: notes/assumptions/9.md), and that it is a next state notes/assumptions/7.md. -/
def Obligations.ReturnPopsOrUnderflows : Prop :=
  decode 0x00EE = .ret ∧
  (∀ s : State, s.sp = 0 → exec .ret s = .next { s with mode := .halted .stackUnderflow s.pc 0 }) ∧
  (∀ (s : State) (n : Fin 16), s.sp = n.succ →
    exec .ret s = .next { s with pc := s.stack[n], sp := n.castSucc })

/-- `2NNN` with room on the stack (R103; that the pushed value is pc0 + 2 is derived there, decision D2,
notes/assumptions/8.md). -/
def Obligations.CallPushesTheReturnAddress : Prop :=
  ∀ (nnn : BitVec 12) (s : State) (n : Fin 16), s.sp = n.castSucc →
    decode (0x2#4 ++ nnn) = .call nnn ∧
    ∃ p : Word, p.toNat = nnn.toNat ∧
      exec (.call nnn) s =
        .next { s with stack := s.stack.set n (s.pc + 2), sp := n.succ, pc := p }

/-- `StackOverflow` (R201): raised by `2NNN` exactly when SP = 16 before the call; the stack is not modified
and PC stays at the `2NNN`. That the fault records (pc0, 0) and changes MODE alone is R200 and R205 (decisions
D5, D4: notes/assumptions/9.md), and that it is a next state notes/assumptions/7.md. -/
def Obligations.CallOverflowsExactlyWhenFull : Prop :=
  ∀ (nnn : BitVec 12) (s : State),
    (s.sp = 16 → exec (.call nnn) s = .next { s with mode := .halted .stackOverflow s.pc 0 }) ∧
    (s.sp ≠ 16 → ∃ t, exec (.call nnn) s = .next t ∧ t.mode = s.mode ∧ t.sp.val = s.sp.val + 1)

/-- `2NNN` followed by `00EE` returns to the instruction after the call; all else is as before but one stale
stack cell (R109, derived there from R101 and R103; D2, notes/assumptions/8.md). -/
def Obligations.CallThenReturnRestores : Prop :=
  ∀ (nnn : BitVec 12) (s : State) (n : Fin 16), s.sp = n.castSucc →
    ∃ t, exec (.call nnn) s = .next t ∧
      exec .ret t = .next { s with stack := s.stack.set n (s.pc + 2), pc := s.pc + 2 }

/-- The four register skips (R104 to R107): a taken skip ends at pc0 + 4, one not taken at pc0 + 2, and
nothing else changes. -/
def Obligations.SkipsCompareRegisters : Prop :=
  ∀ (x y : Reg) (nn : Byte) (s : State),
    decode (0x3#4 ++ BitVec.ofNat 4 x.val ++ nn) = .seVxNn x nn ∧
    decode (0x4#4 ++ BitVec.ofNat 4 x.val ++ nn) = .sneVxNn x nn ∧
    decode (0x5#4 ++ BitVec.ofNat 4 x.val ++ BitVec.ofNat 4 y.val ++ 0x0#4) = .seVxVy x y ∧
    decode (0x9#4 ++ BitVec.ofNat 4 x.val ++ BitVec.ofNat 4 y.val ++ 0x0#4) = .sneVxVy x y ∧
    (s.v[x] = nn → exec (.seVxNn x nn) s = .next { s with pc := s.pc + 4 } ∧
      exec (.sneVxNn x nn) s = .next { s with pc := s.pc + 2 }) ∧
    (s.v[x] ≠ nn → exec (.seVxNn x nn) s = .next { s with pc := s.pc + 2 } ∧
      exec (.sneVxNn x nn) s = .next { s with pc := s.pc + 4 }) ∧
    (s.v[x] = s.v[y] → exec (.seVxVy x y) s = .next { s with pc := s.pc + 4 } ∧
      exec (.sneVxVy x y) s = .next { s with pc := s.pc + 2 }) ∧
    (s.v[x] ≠ s.v[y] → exec (.seVxVy x y) s = .next { s with pc := s.pc + 2 } ∧
      exec (.sneVxVy x y) s = .next { s with pc := s.pc + 4 })

/-- `BNNN` (R108): PC is NNN plus V[0], or plus V[X] with X the top nibble of NNN when JUMP_USES_VX is set
(that variant is GK10, decision D29, notes/assumptions/21.md); the sum is exact, not reduced to 12 bits. -/
def Obligations.JumpWithOffsetAddsARegister : Prop :=
  ∀ (nnn : BitVec 12) (s : State), decode (0xB#4 ++ nnn) = .jpV0Nnn nnn ∧
    ∃ p : Word, exec (.jpV0Nnn nnn) s = .next { s with pc := p } ∧
      (s.config.jumpUsesVx = false → p.toNat = nnn.toNat + (s.v[0]).toNat) ∧
      (s.config.jumpUsesVx = true → ∀ x : Reg, x.val = nnn.toNat / 256 →
        p.toNat = nnn.toNat + (s.v[x]).toNat)

/-! ## Loads, arithmetic, logic, shifts, random -/

/-- `6XNN` and `7XNN` (R120, R121): V[X] receives NN, or V[X] + NN modulo 256; VF is an ordinary destination
when X = 15 and otherwise unchanged. -/
def Obligations.LoadAndAddImmediate : Prop :=
  ∀ (x : Reg) (nn : Byte) (s : State),
    decode (0x6#4 ++ BitVec.ofNat 4 x.val ++ nn) = .ldVxNn x nn ∧
    decode (0x7#4 ++ BitVec.ofNat 4 x.val ++ nn) = .addVxNn x nn ∧
    exec (.ldVxNn x nn) s = .next { s with v := s.v.set x nn, pc := s.pc + 2 } ∧
    ∃ b : Byte, b.toNat = ((s.v[x]).toNat + nn.toNat) % 256 ∧
      exec (.addVxNn x nn) s = .next { s with v := s.v.set x b, pc := s.pc + 2 }

/-- `8XY0` to `8XY3` (R122 to R125; that VF is left alone is decision D11, notes/assumptions/12.md, the low
nibbles are GK2, notes/assumptions/11.md): V[X] receives V[Y], or the bitwise OR, AND, exclusive OR of V[X]
and V[Y]. -/
def Obligations.MoveAndLogicWriteOnlyVx : Prop :=
  ∀ (x y : Reg) (s : State),
    exec (.ldVxVy x y) s = .next { s with v := s.v.set x s.v[y], pc := s.pc + 2 } ∧
    ∃ o a e : Byte,
      (∀ k < 8, o.getLsbD k = ((s.v[x]).getLsbD k || (s.v[y]).getLsbD k) ∧
        a.getLsbD k = ((s.v[x]).getLsbD k && (s.v[y]).getLsbD k) ∧
        e.getLsbD k = ((s.v[x]).getLsbD k ^^ (s.v[y]).getLsbD k)) ∧
      exec (.orVxVy x y) s = .next { s with v := s.v.set x o, pc := s.pc + 2 } ∧
      exec (.andVxVy x y) s = .next { s with v := s.v.set x a, pc := s.pc + 2 } ∧
      exec (.xorVxVy x y) s = .next { s with v := s.v.set x e, pc := s.pc + 2 }

/-- `8XY4` (R126): V[X] is the sum modulo 256 and VF the carry, 0 or 1; with X = 15 the carry remains (the
order is decision D10, notes/assumptions/12.md). -/
def Obligations.AddSetsCarry : Prop :=
  ∀ (x y : Reg) (s : State), ∃ v' : Vector Byte 16,
    exec (.addVxVy x y) s = .next { s with v := v', pc := s.pc + 2 } ∧
    (x ≠ 15 → (v'[x]).toNat = ((s.v[x]).toNat + (s.v[y]).toNat) % 256) ∧
    (v'[15]).toNat = (if 255 < (s.v[x]).toNat + (s.v[y]).toNat then 1 else 0) ∧
    ∀ r : Reg, r ≠ x → r ≠ 15 → v'[r] = s.v[r]

/-- `8XY5` and `8XY7` (R127, R129): V[X] is VX − VY, or VY − VX, modulo 256 and VF is 1 exactly when no borrow
is needed, equality included (GK2, notes/assumptions/11.md; GK3, decisions D10, D12, notes/assumptions/12.md).
-/
def Obligations.SubtractSetsNoBorrow : Prop :=
  ∀ (x y : Reg) (s : State),
    (∃ v' : Vector Byte 16,
      exec (.subVxVy x y) s = .next { s with v := v', pc := s.pc + 2 } ∧
      (x ≠ 15 → (v'[x]).toNat = ((s.v[x]).toNat + 256 - (s.v[y]).toNat) % 256) ∧
      (v'[15]).toNat = (if (s.v[y]).toNat ≤ (s.v[x]).toNat then 1 else 0) ∧
      ∀ r : Reg, r ≠ x → r ≠ 15 → v'[r] = s.v[r]) ∧
    (∃ v' : Vector Byte 16,
      exec (.subnVxVy x y) s = .next { s with v := v', pc := s.pc + 2 } ∧
      (x ≠ 15 → (v'[x]).toNat = ((s.v[y]).toNat + 256 - (s.v[x]).toNat) % 256) ∧
      (v'[15]).toNat = (if (s.v[x]).toNat ≤ (s.v[y]).toNat then 1 else 0) ∧
      ∀ r : Reg, r ≠ x → r ≠ 15 → v'[r] = s.v[r])

/-- `8XY6` and `8XYE` under both settings of SHIFT_MODE (R128, R130): the source, V[Y] or V[X], is shifted by
one into V[X] and VF is the bit shifted out (GK2, notes/assumptions/11.md; GK3, decision D10,
notes/assumptions/12.md). -/
def Obligations.ShiftsFollowTheShiftMode : Prop :=
  ∀ (x y : Reg) (s : State) (src : Byte),
    (s.config.shiftMode = .shiftVY → src = s.v[y]) → (s.config.shiftMode = .shiftVX → src = s.v[x]) →
    (∃ v' : Vector Byte 16,
      exec (.shrVxVy x y) s = .next { s with v := v', pc := s.pc + 2 } ∧
      (x ≠ 15 → (v'[x]).toNat = src.toNat / 2) ∧ (v'[15]).toNat = src.toNat % 2 ∧
      ∀ r : Reg, r ≠ x → r ≠ 15 → v'[r] = s.v[r]) ∧
    (∃ v' : Vector Byte 16,
      exec (.shlVxVy x y) s = .next { s with v := v', pc := s.pc + 2 } ∧
      (x ≠ 15 → (v'[x]).toNat = src.toNat * 2 % 256) ∧ (v'[15]).toNat = src.toNat / 128 ∧
      ∀ r : Reg, r ≠ x → r ≠ 15 → v'[r] = s.v[r])

/-- `CXNN` (R131): V[X] is the random byte of this Cycle masked by NN, for every random byte. -/
def Obligations.RandomByteIsMasked : Prop :=
  ∀ (x : Reg) (nn : Byte) (s : State),
    decode (0xC#4 ++ BitVec.ofNat 4 x.val ++ nn) = .rndVxNn x nn ∧
    ∃ b : Byte, (∀ k < 8, b.getLsbD k = (s.rnd.getLsbD k && nn.getLsbD k)) ∧
      exec (.rndVxNn x nn) s = .next { s with v := s.v.set x b, pc := s.pc + 2 }

/-! ## Index register and memory -/

/-- `ANNN` (R140): I is NNN, zero-extended. -/
def Obligations.LoadIndexSetsI : Prop :=
  ∀ (nnn : BitVec 12) (s : State), decode (0xA#4 ++ nnn) = .ldINnn nnn ∧
    ∃ a : Word, a.toNat = nnn.toNat ∧ exec (.ldINnn nnn) s = .next { s with i := a, pc := s.pc + 2 }

/-- `FX1E` and `FX29` (R141, R142): I is I + V[X] modulo 65536 with no flag (decision D7,
notes/assumptions/10.md), or FONT_BASE plus 5 times the low nibble of V[X] (GK9, decision D16,
notes/assumptions/15.md). -/
def Obligations.IndexAddAndGlyphAddress : Prop :=
  ∀ (x : Reg) (s : State), ∃ a g : Word,
    a.toNat = (s.i.toNat + (s.v[x]).toNat) % 65536 ∧
    g.toNat = s.config.fontBase.val + 5 * ((s.v[x]).toNat % 16) ∧
    exec (.addIVx x) s = .next { s with i := a, pc := s.pc + 2 } ∧
    exec (.ldFVx x) s = .next { s with i := g, pc := s.pc + 2 }

/-- `FX33` (R143): the hundreds, tens and ones digits of V[X] go to I, I + 1, I + 2, every other byte and
everything else as before; if one of the three addresses is 0x1000 or more it stores nothing and takes
`DataOutOfRange`. The `Halted` record and that a fault changes MODE alone are R200 and R205 (decisions D4, D5,
D33: notes/assumptions/9.md), that it is a next state notes/assumptions/7.md, the canonical form
notes/assumptions/1.md. -/
def Obligations.DecimalDigitsAreStored : Prop :=
  ∀ (x : Reg) (s : State),
    decode (0xF#4 ++ BitVec.ofNat 4 x.val ++ 0x33#8) = .ldBVx x ∧
    (s.mem.wf → s.i.toNat + 2 < 0x1000 →
      ∃ m : Memory, exec (.ldBVx x) s = .next { s with mem := m, pc := s.pc + 2 } ∧
        (m.get s.i.toNat).toNat = (s.v[x]).toNat / 100 ∧
        (m.get (s.i.toNat + 1)).toNat = (s.v[x]).toNat / 10 % 10 ∧
        (m.get (s.i.toNat + 2)).toNat = (s.v[x]).toNat % 10 ∧
        ∀ a, a < s.i.toNat ∨ s.i.toNat + 2 < a → m.get a = s.mem.get a) ∧
    (0x1000 ≤ s.i.toNat + 2 →
      exec (.ldBVx x) s =
        .next { s with mode := .halted .dataOutOfRange s.pc (max s.i.toNat 0x1000) })

/-- `FX55` (R144): V[0] to V[X] go to I to I + X, every other byte as before; I stays, or with
LOAD_STORE_INCREMENTS_I becomes I + X + 1; out of range it stores nothing and takes `DataOutOfRange`. The
`Halted` record and that a fault changes MODE alone are R200 and R205 (decisions D4, D5, D33:
notes/assumptions/9.md), that it is a next state notes/assumptions/7.md, the canonical form
notes/assumptions/1.md. -/
def Obligations.BlockStoreWritesLowRegisters : Prop :=
  ∀ (x : Reg) (s : State),
    decode (0xF#4 ++ BitVec.ofNat 4 x.val ++ 0x55#8) = .ldMemVx x ∧
    (s.mem.wf → s.i.toNat + x.val < 0x1000 →
      ∃ (m : Memory) (a' : Word),
        exec (.ldMemVx x) s = .next { s with mem := m, i := a', pc := s.pc + 2 } ∧
        (∀ k : Reg, k ≤ x → m.get (s.i.toNat + k.val) = s.v[k]) ∧
        (∀ a, a < s.i.toNat ∨ s.i.toNat + x.val < a → m.get a = s.mem.get a) ∧
        (s.config.loadStoreIncrementsI = false → a' = s.i) ∧
        (s.config.loadStoreIncrementsI = true → a'.toNat = s.i.toNat + x.val + 1)) ∧
    (0x1000 ≤ s.i.toNat + x.val →
      exec (.ldMemVx x) s =
        .next { s with mode := .halted .dataOutOfRange s.pc (max s.i.toNat 0x1000) })

/-- `FX65` (R145): V[0] to V[X] are loaded from I to I + X, the registers above keep their values, memory is
unchanged; I as in `FX55`; out of range no register is loaded and it takes `DataOutOfRange`. The `Halted`
record and that a fault changes MODE alone are R200 and R205 (decisions D4, D5, D33: notes/assumptions/9.md),
that it is a next state notes/assumptions/7.md. -/
def Obligations.BlockLoadReadsLowRegisters : Prop :=
  ∀ (x : Reg) (s : State),
    decode (0xF#4 ++ BitVec.ofNat 4 x.val ++ 0x65#8) = .ldVxMem x ∧
    (s.i.toNat + x.val < 0x1000 →
      ∃ (v' : Vector Byte 16) (a' : Word),
        exec (.ldVxMem x) s = .next { s with v := v', i := a', pc := s.pc + 2 } ∧
        (∀ k : Reg, k ≤ x → v'[k] = s.mem.get (s.i.toNat + k.val)) ∧
        (∀ k : Reg, x < k → v'[k] = s.v[k]) ∧
        (s.config.loadStoreIncrementsI = false → a' = s.i) ∧
        (s.config.loadStoreIncrementsI = true → a'.toNat = s.i.toNat + x.val + 1)) ∧
    (0x1000 ≤ s.i.toNat + x.val →
      exec (.ldVxMem x) s =
        .next { s with mode := .halted .dataOutOfRange s.pc (max s.i.toNat 0x1000) })

/-- `DataOutOfRange` (R204): the four memory instructions raise it exactly when their highest address,
computed without wrapping, is 0x1000 or more; `ANNN`, `FX1E` and `FX29` never fault. The recorded address is
that of R200, and a fault changes MODE alone (R205; decisions D4, D5, D33, notes/assumptions/9.md; no wrap is
D6, notes/assumptions/10.md; N = 0 is D15, notes/assumptions/13.md). -/
def Obligations.DataOutOfRangeExactlyPastTheEnd : Prop :=
  ∀ (x y : Reg) (n : BitVec 4) (nnn : BitVec 12) (s : State), ¬s.isHalted →
    (∀ i : Instr,
      (i = .drwVxVyN x y n ∧ 1 ≤ n.toNat ∧ 0x1000 ≤ s.i.toNat + n.toNat - 1) ∨
      (i = .ldBVx x ∧ 0x1000 ≤ s.i.toNat + 2) ∨
      ((i = .ldMemVx x ∨ i = .ldVxMem x) ∧ 0x1000 ≤ s.i.toNat + x.val) →
      exec i s = .next { s with mode := .halted .dataOutOfRange s.pc (max s.i.toNat 0x1000) }) ∧
    (∀ i : Instr,
      (i = .drwVxVyN x y n ∧ (n.toNat = 0 ∨ s.i.toNat + n.toNat - 1 < 0x1000)) ∨
      (i = .ldBVx x ∧ s.i.toNat + 2 < 0x1000) ∨
      ((i = .ldMemVx x ∨ i = .ldVxMem x) ∧ s.i.toNat + x.val < 0x1000) ∨
      i = .ldINnn nnn ∨ i = .addIVx x ∨ i = .ldFVx x →
      ∃ t, exec i s = .next t ∧ t.mode = s.mode)

/-! ## Display -/

/-- `00E0` (R160): all cells false, exactly one `FullClear`, also on a blank grid (decision D28,
notes/assumptions/14.md); VF and all else unchanged. -/
def Obligations.ClearBlanksAndEmitsFullClear : Prop :=
  decode 0x00E0 = .cls ∧
  ∀ s : State, ∃ d : Display, (∀ (r : Fin 32) (c : Fin 64), d[r][c] = false) ∧
    exec .cls s =
      .next { s with disp := d, events := s.events ++ [.fullClear], pc := s.pc + 2 }

/-- `DXYN` in range (R161, R162): exactly the cells the sprite's on-grid 1-pixels land on are toggled, VF is
written with 0 or 1, I, memory and all else unchanged; both edge modes (that X, Y and N give position and
height is GK6; the edge modes are decision D13; N = 0 is decision D15: notes/assumptions/13.md; the order is
D10, notes/assumptions/12.md). -/
def Obligations.DrawTogglesTheSpriteCells : Prop :=
  ∀ (x y : Reg) (n : BitVec 4) (s : State), n = 0 ∨ s.i.toNat + n.toNat ≤ 0x1000 →
    ∃ (d : Display) (f : Byte) (es : List Event),
      exec (.drwVxVyN x y n) s =
        .next { s with disp := d, v := s.v.set 15 f, events := s.events ++ es, pc := s.pc + 2 } ∧
      (f = 0 ∨ f = 1) ∧
      ∀ (r : Fin 32) (c : Fin 64),
        (s.spriteHits x y n r c → d[r][c] = !s.disp[r][c]) ∧
        (¬s.spriteHits x y n r c → d[r][c] = s.disp[r][c])

/-- The collision flag (R163): after a draw VF is 1 if some cell that was set before the XOR is unset after
it, and 0 otherwise, whatever VF held before. That N = 0 completes with VF = 0 whatever I holds is decision
D15 of R161 (notes/assumptions/13.md), that VF is written last D10 (notes/assumptions/12.md). -/
def Obligations.CollisionFlagIsExact : Prop :=
  ∀ (x y : Reg) (n : BitVec 4) (s : State), n = 0 ∨ s.i.toNat + n.toNat ≤ 0x1000 →
    ∃ t, exec (.drwVxVyN x y n) s = .next t ∧
      ((∃ (r : Fin 32) (c : Fin 64), s.disp[r][c] = true ∧ t.disp[r][c] = false) →
        t.getV 15 = 1) ∧
      (¬(∃ (r : Fin 32) (c : Fin 64), s.disp[r][c] = true ∧ t.disp[r][c] = false) →
        t.getV 15 = 0)

/-- The events of a draw (R164): exactly one `PixelChanged` with the new value per on-grid 1-pixel of the
sprite, which are the cells that changed, and none twice (as a set). Where the pixels land rests on R161 and
R162: that X, Y and N give position and height is GK6, the edge modes are D13, N = 0 is D15
(notes/assumptions/13.md). -/
def Obligations.DrawReportsEachChangedCellOnce : Prop :=
  ∀ (x y : Reg) (n : BitVec 4) (s : State), n = 0 ∨ s.i.toNat + n.toNat ≤ 0x1000 →
    ∃ (t : State) (es : List Event), exec (.drwVxVyN x y n) s = .next t ∧
      t.events = s.events ++ es ∧ es.Nodup ∧
      (∀ e, e ∈ es ↔ ∃ (r : Fin 32) (c : Fin 64), s.spriteHits x y n r c ∧
        e = .pixelChanged r c (t.disp[r][c])) ∧
      ∀ (r : Fin 32) (c : Fin 64), s.spriteHits x y n r c ↔ t.disp[r][c] ≠ s.disp[r][c]

/-- The order of a draw's event list (decision D14, notes/assumptions/14.md): sprite row ascending, then
sprite column ascending. Where the pixels land rests on R161 and R162 (GK6, D13, D15:
notes/assumptions/13.md). -/
def Obligations.DrawEventsFollowTheScanOrder : Prop :=
  ∀ (x y : Reg) (n : BitVec 4) (s : State), n = 0 ∨ s.i.toNat + n.toNat ≤ 0x1000 →
    ∃ t, exec (.drwVxVyN x y n) s = .next t ∧
      t.events = s.events ++ (List.range n.toNat).flatMap (fun row =>
        (List.range 8).filterMap (fun col =>
          if (s.mem.get (s.i.toNat + row)).getLsbD (7 - col) then
            (target s.config.edgeMode ((s.getV x).toNat + col) ((s.getV y).toNat + row)).map
              (fun p => .pixelChanged p.1 p.2 (t.disp[p.1][p.2]))
          else none))

/-- `DXYN` with N = 0 (R161 (b), decision D15, notes/assumptions/13.md): whatever I holds, no cell changes, no
event, VF is 0. -/
def Obligations.EmptyDrawClearsTheFlag : Prop :=
  ∀ (x y : Reg) (s : State),
    exec (.drwVxVyN x y 0) s = .next { s with v := s.v.set 15 0, pc := s.pc + 2 }

/-- The pair property (R165): the same draw twice, with X and Y not VF, restores the grid exactly, under both
edge modes; VF after the second draw is 1 exactly when some cell the sprite lands on was unset at first (the
second clause is derived there from R161 and R163; where the pixels land rests on GK6, D13 and D15,
notes/assumptions/13.md; VF written last is D10, notes/assumptions/12.md). -/
def Obligations.DrawingTwiceRestoresTheDisplay : Prop :=
  ∀ (x y : Reg) (n : BitVec 4) (s : State), x ≠ 15 → y ≠ 15 →
    n = 0 ∨ s.i.toNat + n.toNat ≤ 0x1000 →
    ∃ t u, exec (.drwVxVyN x y n) s = .next t ∧ exec (.drwVxVyN x y n) t = .next u ∧
      u.disp = s.disp ∧
      (u.getV 15 = 1 ↔ ∃ (r : Fin 32) (c : Fin 64), s.spriteHits x y n r c ∧ s.disp[r][c] = false)

/-- `Target` (R162, decision D13, notes/assumptions/13.md): `Wrap` reduces row and column modulo the grid,
`Clip` drops what is off the grid; and under either mode the pixels of one sprite never meet in a cell. -/
def Obligations.TargetWrapsOrClips : Prop :=
  (∀ x y : Nat, ∃ (r : Fin 32) (c : Fin 64), target .wrap x y = some (r, c) ∧
    r.val = y % 32 ∧ c.val = x % 64) ∧
  (∀ x y : Nat, x < 64 → y < 32 → ∃ (r : Fin 32) (c : Fin 64), target .clip x y = some (r, c) ∧
    r.val = y ∧ c.val = x) ∧
  (∀ x y : Nat, 64 ≤ x ∨ 32 ≤ y → target .clip x y = none) ∧
  (∀ (mode : EdgeMode) (x0 y0 row col row' col' : Nat) (p : Fin 32 × Fin 64),
    row < 15 → row' < 15 → col < 8 → col' < 8 →
    target mode (x0 + col) (y0 + row) = some p → target mode (x0 + col') (y0 + row') = some p →
    row = row' ∧ col = col')

/-! ## Keys and timers -/

/-- `EX9E` (R180): skips when the key numbered by the low nibble of V[X] is pressed in this Cycle's sample. -/
def Obligations.SkipIfKeyPressed : Prop :=
  ∀ (x : Reg) (s : State) (k : Fin 16), k.val = (s.v[x]).toNat % 16 →
    decode (0xE#4 ++ BitVec.ofNat 4 x.val ++ 0x9E#8) = .skpVx x ∧
    (s.keys[k] = true → exec (.skpVx x) s = .next { s with pc := s.pc + 4 }) ∧
    (s.keys[k] = false → exec (.skpVx x) s = .next { s with pc := s.pc + 2 })

/-- `EXA1` (R181; GK8, notes/assumptions/22.md): skips when that key is not pressed. -/
def Obligations.SkipIfKeyNotPressed : Prop :=
  ∀ (x : Reg) (s : State) (k : Fin 16), k.val = (s.v[x]).toNat % 16 →
    (s.keys[k] = false → exec (.sknpVx x) s = .next { s with pc := s.pc + 4 }) ∧
    (s.keys[k] = true → exec (.sknpVx x) s = .next { s with pc := s.pc + 2 })

/-- `FX0A` in the Cycle that fetches it (R182; decision D18, notes/assumptions/17.md): MODE becomes
`AwaitingKey(X)`, PC and V[X] and all else stay, whatever KEYS holds. -/
def Obligations.AwaitKeySuspends : Prop :=
  ∀ (x : Reg) (s : State),
    decode (0xF#4 ++ BitVec.ofNat 4 x.val ++ 0x0A#8) = .ldVxK x ∧
    exec (.ldVxK x) s = .next { s with mode := .awaitingKey x }

/-- `FX07`, `FX15`, `FX18` (R184 to R186; which is which is GK5, notes/assumptions/22.md): V[X] receives DT,
DT or ST receives V[X]. -/
def Obligations.TimerMovesCopyTheByte : Prop :=
  ∀ (x : Reg) (s : State),
    exec (.ldVxDt x) s = .next { s with v := s.v.set x s.dt, pc := s.pc + 2 } ∧
    exec (.ldDtVx x) s = .next { s with dt := s.v[x], pc := s.pc + 2 } ∧
    exec (.ldStVx x) s = .next { s with st := s.v[x], pc := s.pc + 2 }
end

