-- ==== Sys2Proof/Laws/Display.lean ====
section
/-! SUPPORT. The XOR-blit: where pixels land, that none meet, and what a whole draw does to the grid, the
flag and the events. -/

namespace Sys2Proof.Machine

theorem Display.cell_eq (d : Display) (r : Fin 32) (c : Fin 64) : d.cell r c = d[r][c] := rfl

theorem Display.cell_setCell (d : Display) (r r' : Fin 32) (c c' : Fin 64) (b : Bool) :
    (d.setCell r c b).cell r' c' = if (r', c') = (r, c) then b else d.cell r' c' := by
  by_cases hr : r' = r
  · subst hr
    by_cases hc : c' = c
    · subst hc
      simp [Display.cell, Display.setCell]
    · have hv : (c : Nat) ≠ c' := fun e => hc (Fin.ext e.symm)
      simp [Display.cell, Display.setCell, hc, hv]
  · have hv : (r : Nat) ≠ r' := fun e => hr (Fin.ext e.symm)
    simp [Display.cell, Display.setCell, hr, hv]

@[simp] theorem Display.cell_blank (r : Fin 32) (c : Fin 64) : Display.blank.cell r c = false := by
  simp [Display.cell, Display.blank]

/-- What the fold of the blit does over targets that do not meet. -/
theorem foldl_pixel (ts : List (Fin 32 × Fin 64)) (b : Blit) (h : ts.Nodup) :
    (∀ r c, (ts.foldl Blit.pixel b).disp.cell r c =
      if (r, c) ∈ ts then !b.disp.cell r c else b.disp.cell r c) ∧
    (ts.foldl Blit.pixel b).collision = (b.collision || ts.any (fun p => b.disp.cell p.1 p.2)) ∧
    (ts.foldl Blit.pixel b).events =
      b.events ++ ts.map (fun p => .pixelChanged p.1 p.2 (!b.disp.cell p.1 p.2)) := by
  induction ts generalizing b with
  | nil => simp
  | cons p ts ih =>
    obtain ⟨hp, hts⟩ := List.nodup_cons.1 h
    have untouched : ∀ q ∈ ts, (b.pixel p).disp.cell q.1 q.2 = b.disp.cell q.1 q.2 := by
      intro q hq
      rw [Blit.pixel, Display.cell_setCell, if_neg]
      intro e
      have hqp : q = p := e
      exact hp (hqp ▸ hq)
    obtain ⟨hd, hc, he⟩ := ih (b.pixel p) hts
    refine ⟨fun r c => ?_, ?_, ?_⟩
    · rw [List.foldl_cons, hd]
      simp only [Blit.pixel, Display.cell_setCell, List.mem_cons]
      by_cases hq : (r, c) = (p.1, p.2)
      · have hrc : (r, c) = p := hq
        subst hrc
        simp [hp]
      · have hrc : ¬(r, c) = p := hq
        simp only [hrc, if_false, false_or]
    · rw [List.foldl_cons, hc, List.any_cons]
      have hany : ts.any (fun q => (b.pixel p).disp.cell q.1 q.2) =
          ts.any (fun q => b.disp.cell q.1 q.2) := by
        rw [Bool.eq_iff_iff, List.any_eq_true, List.any_eq_true]
        exact ⟨fun ⟨q, hq, e⟩ => ⟨q, hq, untouched q hq ▸ e⟩,
          fun ⟨q, hq, e⟩ => ⟨q, hq, (untouched q hq).symm ▸ e⟩⟩
      rw [hany]
      simp [Blit.pixel, Bool.or_assoc]
    · rw [List.foldl_cons, he, List.map_cons]
      have hmap : ts.map (fun q => Event.pixelChanged q.1 q.2 (!(b.pixel p).disp.cell q.1 q.2)) =
          ts.map (fun q => Event.pixelChanged q.1 q.2 (!b.disp.cell q.1 q.2)) :=
        List.map_congr_left (fun q hq => by rw [untouched q hq])
      rw [hmap]
      simp [Blit.pixel]

/-- Everything a blit over targets that do not meet does (R161, R163, R164). -/
theorem blit_spec (d : Display) (ts : List (Fin 32 × Fin 64)) (h : ts.Nodup) :
    (∀ r c, (blit d ts).disp.cell r c = if (r, c) ∈ ts then !d.cell r c else d.cell r c) ∧
    (blit d ts).collision = ts.any (fun p => d.cell p.1 p.2) ∧
    (blit d ts).events = ts.map (fun p => .pixelChanged p.1 p.2 (!d.cell p.1 p.2)) := by
  simpa [blit] using foldl_pixel ts { disp := d, collision := false, events := [] } h

theorem mem_rowPixels (b : Byte) (col : Nat) :
    col ∈ rowPixels b ↔ col < 8 ∧ b.getLsbD (7 - col) = true := by
  simp [rowPixels]

theorem nodup_rowPixels (b : Byte) : (rowPixels b).Nodup := List.nodup_range.filter _

theorem mem_spritePixels (k : Nat) (bs : List Byte) (row col : Nat) :
    (row, col) ∈ spritePixels k bs ↔
      k ≤ row ∧ col < 8 ∧ ∃ b, bs[row - k]? = some b ∧ b.getLsbD (7 - col) = true := by
  induction bs generalizing k with
  | nil => simp [spritePixels]
  | cons b bs ih =>
    rw [spritePixels, List.mem_append, ih]
    simp only [List.mem_map, mem_rowPixels, Prod.mk.injEq]
    constructor
    · rintro (⟨c, ⟨hc, hb⟩, rfl, rfl⟩ | ⟨hk, hc, b', hb', hbit⟩)
      · exact ⟨Nat.le_refl _, hc, b, by simp, hb⟩
      · refine ⟨by omega, hc, b', ?_, hbit⟩
        rw [show row - k = (row - (k + 1)) + 1 by omega, List.getElem?_cons_succ]
        exact hb'
    · rintro ⟨hk, hc, b', hb', hbit⟩
      by_cases e : row = k
      · subst e
        rw [Nat.sub_self] at hb'
        obtain rfl : b = b' := by simpa using hb'
        exact .inl ⟨col, ⟨hc, hbit⟩, rfl, rfl⟩
      · refine .inr ⟨by omega, hc, b', ?_, hbit⟩
        rw [show row - k = (row - (k + 1)) + 1 by omega, List.getElem?_cons_succ] at hb'
        exact hb'

theorem nodup_spritePixels (k : Nat) (bs : List Byte) : (spritePixels k bs).Nodup := by
  induction bs generalizing k with
  | nil => exact List.nodup_nil
  | cons b bs ih =>
    rw [spritePixels, List.nodup_append]
    refine ⟨(nodup_rowPixels b).map (fun _ _ e => (Prod.mk.inj e).2), ih (k + 1), ?_⟩
    rintro ⟨r, c⟩ h q hq rfl
    obtain ⟨_, _, e⟩ := List.mem_map.1 h
    have := ((mem_spritePixels _ _ _ _).1 hq).1
    have := (Prod.mk.inj e).1
    omega

theorem target_wrap (x y : Nat) (p : Fin 32 × Fin 64) :
    target .wrap x y = some p ↔ p.1.val = y % 32 ∧ p.2.val = x % 64 := by
  simp only [target, Option.some.injEq, Prod.ext_iff, Fin.ext_iff]
  exact ⟨fun h => ⟨h.1.symm, h.2.symm⟩, fun h => ⟨h.1.symm, h.2.symm⟩⟩

theorem target_clip (x y : Nat) (p : Fin 32 × Fin 64) :
    target .clip x y = some p ↔ p.1.val = y ∧ p.2.val = x := by
  have h1 := p.1.isLt
  have h2 := p.2.isLt
  unfold target
  simp only
  split
  · simp only [Option.some.injEq, Prod.ext_iff, Fin.ext_iff]
    exact ⟨fun h => ⟨h.1.symm, h.2.symm⟩, fun h => ⟨h.1.symm, h.2.symm⟩⟩
  · constructor
    · intro h; cases h
    · omega

/-- Two offsets of less than the grid's size that land on one cell are the same offset (R162). -/
theorem target_injective (mode : EdgeMode) (x0 y0 row col row' col' : Nat) (p : Fin 32 × Fin 64)
    (hr : row < 32) (hr' : row' < 32) (hc : col < 64) (hc' : col' < 64)
    (h : target mode (x0 + col) (y0 + row) = some p)
    (h' : target mode (x0 + col') (y0 + row') = some p) : row = row' ∧ col = col' := by
  cases mode with
  | wrap =>
    rw [target_wrap] at h h'
    omega
  | clip =>
    rw [target_clip] at h h'
    omega

theorem mem_spriteTargets (mode : EdgeMode) (x0 y0 : Nat) (bs : List Byte) (p : Fin 32 × Fin 64) :
    p ∈ spriteTargets mode x0 y0 bs ↔
      ∃ row col b, col < 8 ∧ bs[row]? = some b ∧ b.getLsbD (7 - col) = true ∧
        target mode (x0 + col) (y0 + row) = some p := by
  simp only [spriteTargets, List.mem_filterMap, Prod.exists, mem_spritePixels]
  constructor
  · rintro ⟨row, col, ⟨-, hc, b, hb, hbit⟩, ht⟩
    exact ⟨row, col, b, hc, by simpa using hb, hbit, ht⟩
  · rintro ⟨row, col, b, hc, hb, hbit, ht⟩
    exact ⟨row, col, ⟨Nat.zero_le _, hc, b, by simpa using hb, hbit⟩, ht⟩

/-- No cell is targeted twice by a sprite of at most 32 rows (R162). -/
theorem nodup_spriteTargets (mode : EdgeMode) (x0 y0 : Nat) (bs : List Byte) (h : bs.length ≤ 32) :
    (spriteTargets mode x0 y0 bs).Nodup := by
  refine List.pairwise_filterMap.2 ((nodup_spritePixels 0 bs).imp_of_mem ?_)
  rintro ⟨row, col⟩ ⟨row', col'⟩ hp hq hne p ht q ht' rfl
  obtain ⟨-, hc, b, hb, -⟩ := (mem_spritePixels _ _ _ _).1 hp
  obtain ⟨-, hc', b', hb', -⟩ := (mem_spritePixels _ _ _ _).1 hq
  have hr := (List.getElem?_eq_some_iff.1 hb).1
  have hr' := (List.getElem?_eq_some_iff.1 hb').1
  obtain ⟨rfl, rfl⟩ := target_injective mode x0 y0 row col row' col' p
    (by omega) (by omega) (by omega) (by omega) ht ht'
  exact hne rfl

end Sys2Proof.Machine
end

