-- ==== Sys2Proof/Laws/Encoding.lean ====
section
/-! SUPPORT. The fields of a word and the packed words as numbers, and the fields of each packed word. -/

namespace Sys2Proof

theorem family_toNat (w : Word) : (family w).toNat = w.toNat / 4096 := by
  have := w.isLt
  simp [family, Nat.shiftRight_eq_div_pow]
  omega

theorem fieldX_val (w : Word) : (fieldX w).val = w.toNat / 256 % 16 := by
  simp [fieldX, Nat.shiftRight_eq_div_pow]

theorem fieldY_val (w : Word) : (fieldY w).val = w.toNat / 16 % 16 := by
  simp [fieldY, Nat.shiftRight_eq_div_pow]

theorem fieldN_toNat (w : Word) : (fieldN w).toNat = w.toNat % 16 := by
  simp [fieldN]

theorem fieldNN_toNat (w : Word) : (fieldNN w).toNat = w.toNat % 256 := by
  simp [fieldNN]

theorem fieldNNN_toNat (w : Word) : (fieldNNN w).toNat = w.toNat % 4096 := by
  simp [fieldNNN]

theorem toNat_append_eq {n m : Nat} (a : BitVec n) (b : BitVec m) :
    (a ++ b).toNat = a.toNat * 2 ^ m + b.toNat := by
  rw [BitVec.toNat_append, ← Nat.shiftLeft_add_eq_or_of_lt b.isLt, Nat.shiftLeft_eq]

theorem regBits_toNat (x : Reg) : (regBits x).toNat = x.val := by
  simp [regBits]

theorem packA_toNat (f : BitVec 4) (nnn : BitVec 12) :
    (packA f nnn).toNat = f.toNat * 4096 + nnn.toNat := toNat_append_eq f nnn

theorem packI_toNat (f : BitVec 4) (x : Reg) (nn : Byte) :
    (packI f x nn).toNat = f.toNat * 4096 + x.val * 256 + nn.toNat := by
  have h : (packI f x nn).toNat = (f ++ regBits x).toNat * 2 ^ 8 + nn.toNat := toNat_append_eq _ nn
  rw [h, toNat_append_eq, regBits_toNat]
  omega

theorem packR_toNat (f : BitVec 4) (x y : Reg) (n : BitVec 4) :
    (packR f x y n).toNat = f.toNat * 4096 + x.val * 256 + y.val * 16 + n.toNat := by
  have h : (packR f x y n).toNat = (f ++ regBits x ++ regBits y).toNat * 2 ^ 4 + n.toNat :=
    toNat_append_eq _ n
  rw [h, toNat_append_eq, toNat_append_eq, regBits_toNat, regBits_toNat]
  omega

@[simp] theorem family_packA (f : BitVec 4) (nnn : BitVec 12) : family (packA f nnn) = f := by
  apply BitVec.eq_of_toNat_eq
  rw [family_toNat, packA_toNat]
  omega

@[simp] theorem fieldNNN_packA (f : BitVec 4) (nnn : BitVec 12) : fieldNNN (packA f nnn) = nnn := by
  apply BitVec.eq_of_toNat_eq
  rw [fieldNNN_toNat, packA_toNat]
  omega

theorem fieldN_packA (f : BitVec 4) (nnn : BitVec 12) :
    fieldN (packA f nnn) = nnn.extractLsb' 0 4 := by
  apply BitVec.eq_of_toNat_eq
  rw [fieldN_toNat, packA_toNat]
  simp
  omega

theorem fieldNN_packA (f : BitVec 4) (nnn : BitVec 12) :
    fieldNN (packA f nnn) = nnn.extractLsb' 0 8 := by
  apply BitVec.eq_of_toNat_eq
  rw [fieldNN_toNat, packA_toNat]
  simp
  omega

@[simp] theorem family_packI (f : BitVec 4) (x : Reg) (nn : Byte) : family (packI f x nn) = f := by
  have := x.isLt
  apply BitVec.eq_of_toNat_eq
  rw [family_toNat, packI_toNat]
  omega

@[simp] theorem fieldX_packI (f : BitVec 4) (x : Reg) (nn : Byte) : fieldX (packI f x nn) = x := by
  have := x.isLt
  apply Fin.ext
  rw [fieldX_val, packI_toNat]
  omega

@[simp] theorem fieldNN_packI (f : BitVec 4) (x : Reg) (nn : Byte) :
    fieldNN (packI f x nn) = nn := by
  apply BitVec.eq_of_toNat_eq
  rw [fieldNN_toNat, packI_toNat]
  omega

@[simp] theorem family_packR (f : BitVec 4) (x y : Reg) (n : BitVec 4) :
    family (packR f x y n) = f := by
  have := x.isLt
  have := y.isLt
  apply BitVec.eq_of_toNat_eq
  rw [family_toNat, packR_toNat]
  omega

@[simp] theorem fieldX_packR (f : BitVec 4) (x y : Reg) (n : BitVec 4) :
    fieldX (packR f x y n) = x := by
  have := x.isLt
  have := y.isLt
  apply Fin.ext
  rw [fieldX_val, packR_toNat]
  omega

@[simp] theorem fieldY_packR (f : BitVec 4) (x y : Reg) (n : BitVec 4) :
    fieldY (packR f x y n) = y := by
  have := x.isLt
  have := y.isLt
  apply Fin.ext
  rw [fieldY_val, packR_toNat]
  omega

@[simp] theorem fieldN_packR (f : BitVec 4) (x y : Reg) (n : BitVec 4) :
    fieldN (packR f x y n) = n := by
  apply BitVec.eq_of_toNat_eq
  rw [fieldN_toNat, packR_toNat]
  omega

/-- A word is the packing of its own fields, in each of the three layouts. -/
theorem packA_fields (w : Word) : packA (family w) (fieldNNN w) = w := by
  apply BitVec.eq_of_toNat_eq
  rw [packA_toNat, family_toNat, fieldNNN_toNat]
  omega

theorem packI_fields (w : Word) : packI (family w) (fieldX w) (fieldNN w) = w := by
  apply BitVec.eq_of_toNat_eq
  rw [packI_toNat, family_toNat, fieldX_val, fieldNN_toNat]
  omega

theorem packR_fields (w : Word) : packR (family w) (fieldX w) (fieldY w) (fieldN w) = w := by
  apply BitVec.eq_of_toNat_eq
  rw [packR_toNat, family_toNat, fieldX_val, fieldY_val, fieldN_toNat]
  omega

/-- The two bytes of a word, put together again, are the word (R52). -/
@[simp] theorem wordOfBytes_bytes (w : Word) : wordOfBytes (highByte w) (lowByte w) = w := by
  apply BitVec.eq_of_toNat_eq
  have h : (wordOfBytes (highByte w) (lowByte w)).toNat =
      (highByte w).toNat * 2 ^ 8 + (lowByte w).toNat := toNat_append_eq _ _
  have := w.isLt
  rw [h]
  simp [highByte, lowByte, Nat.shiftRight_eq_div_pow]
  omega

@[simp] theorem decodeBytes_cons_cons (hi lo : Byte) (rest : List Byte) :
    decodeBytes (hi :: lo :: rest) = .ok (decode (wordOfBytes hi lo), rest) := rfl

end Sys2Proof
end

