-- ==== Sys2Proof/Laws/Memory.lean ====
section
/-! SUPPORT. The laws of memory: what a read gives after each operation, and that every operation keeps the
canonical form. -/

namespace Sys2Proof.Machine.Memory

/-- The addresses of a memory whose cells all lie above `a` do not include `a`. -/
theorem get_of_lt (m : Memory) (a : Nat) (h : ∀ c ∈ m, a < c.1) : m.get a = 0 := by
  induction m with
  | nil => rfl
  | cons c m ih =>
    have hc : a < c.1 := h c (by simp)
    rw [get, if_neg (by omega)]
    exact ih (fun d hd => h d (by simp [hd]))

theorem wf_cons (c : Host.Cell) (m : Memory) :
    Memory.wf (c :: m) ↔ (∀ d ∈ m, c.1 < d.1) ∧ c.1 < memSize ∧ c.2 ≠ 0 ∧ m.wf := by
  simp only [Memory.wf, List.pairwise_cons, List.forall_mem_cons]
  tauto

/-- A read at the address just written gives the byte written. -/
theorem get_set_same (m : Memory) (a : Nat) (b : Byte) (h : m.wf) : (m.set a b).get a = b := by
  induction m with
  | nil => unfold set; split <;> simp_all [get]
  | cons c m ih =>
    obtain ⟨hlt, -, -, hm⟩ := (wf_cons c m).1 h
    unfold set
    split
    · split
      · next hb =>
        rw [get_of_lt _ _ (by
          intro d hd
          rcases List.mem_cons.1 hd with rfl | hd
          · assumption
          · have := hlt d hd; omega), hb]
      · simp [get]
    · split
      · next heq =>
        split
        · next hb => rw [get_of_lt m a (by intro d hd; have := hlt d hd; omega), hb]
        · simp [get]
      · rw [get, if_neg (by omega)]
        exact ih hm

/-- A write leaves every other address alone. -/
theorem get_set_other (m : Memory) (a a' : Nat) (b : Byte) (h : a' ≠ a) :
    (m.set a b).get a' = m.get a' := by
  induction m with
  | nil => unfold set; split <;> simp [get, h.symm]
  | cons c m ih =>
    unfold set
    split
    · split
      · rfl
      · simp [get, h.symm]
    · split
      · next heq =>
        split
        · rw [get, if_neg (by omega)]
        · simp only [get]
          rw [if_neg (by omega), if_neg (by omega)]
      · simp only [get, ih]

/-- Every cell of a memory after a write is an old cell or the one written. -/
theorem mem_set (m : Memory) (a : Nat) (b : Byte) (c : Host.Cell) (h : c ∈ m.set a b) :
    c ∈ m ∨ (c = (a, b) ∧ b ≠ 0) := by
  induction m with
  | nil =>
    unfold set at h
    split at h
    · cases h
    · exact .inr ⟨by simpa using h, by assumption⟩
  | cons d m ih =>
    unfold set at h
    split at h
    · split at h
      · exact .inl h
      · rcases List.mem_cons.1 h with rfl | h
        · exact .inr ⟨rfl, by assumption⟩
        · exact .inl h
    · split at h
      · split at h
        · exact .inl (List.mem_cons_of_mem _ h)
        · rcases List.mem_cons.1 h with rfl | h
          · exact .inr ⟨rfl, by assumption⟩
          · exact .inl (List.mem_cons_of_mem _ h)
      · rcases List.mem_cons.1 h with rfl | h
        · exact .inl (by simp)
        · rcases ih h with h | h
          · exact .inl (List.mem_cons_of_mem _ h)
          · exact .inr h

/-- A write at an address that exists keeps the canonical form. -/
theorem wf_set (m : Memory) (a : Nat) (b : Byte) (h : m.wf) (ha : a < memSize) : (m.set a b).wf := by
  induction m with
  | nil => unfold set; split <;> simp_all [Memory.wf]
  | cons c m ih =>
    obtain ⟨hlt, hc, hc0, hm⟩ := (wf_cons c m).1 h
    unfold set
    split
    · split
      · exact h
      · next hb =>
        refine (wf_cons _ _).2 ⟨?_, ha, hb, h⟩
        intro d hd
        rcases List.mem_cons.1 hd with rfl | hd
        · assumption
        · have := hlt d hd; simp only; omega
    · split
      · next heq =>
        split
        · exact hm
        · next hb =>
          refine (wf_cons _ _).2 ⟨?_, ha, hb, hm⟩
          intro d hd
          have := hlt d hd
          simp only; omega
      · refine (wf_cons _ _).2 ⟨?_, hc, hc0, ih hm⟩
        intro d hd
        rcases mem_set m a b d hd with hd | ⟨rfl, -⟩
        · exact hlt d hd
        · simp only; omega

/-- A read after storing a run of bytes: inside the run the byte stored, outside it the old byte. -/
theorem get_setBytes (m : Memory) (a : Nat) (bs : List Byte) (h : m.wf) (hr : a + bs.length ≤ memSize)
    (x : Nat) : (m.setBytes a bs).get x =
      if a ≤ x then (bs[x - a]?).getD (m.get x) else m.get x := by
  induction bs generalizing m a with
  | nil => simp [setBytes]
  | cons b bs ih =>
    simp only [List.length_cons] at hr
    rw [setBytes, ih (m.set a b) (a + 1) (wf_set m a b h (by omega)) (by omega)]
    by_cases hx : a + 1 ≤ x
    · rw [if_pos hx, if_pos (by omega), get_set_other m a x b (by omega)]
      obtain ⟨k, rfl⟩ : ∃ k, x = a + 1 + k := ⟨x - (a + 1), by omega⟩
      rw [Nat.add_sub_cancel_left, show a + 1 + k - a = k + 1 by omega, List.getElem?_cons_succ]
    · rw [if_neg hx]
      by_cases hxa : x = a
      · subst hxa
        simp [get_set_same m x b h]
      · rw [get_set_other m a x b hxa, if_neg (by omega)]

/-- Storing bytes at addresses that exist keeps the canonical form. -/
theorem wf_setBytes (m : Memory) (a : Nat) (bs : List Byte) (h : m.wf) (hr : a + bs.length ≤ memSize) :
    (m.setBytes a bs).wf := by
  induction bs generalizing m a with
  | nil => exact h
  | cons b bs ih =>
    simp only [List.length_cons] at hr
    exact ih _ _ (wf_set m a b h (by omega)) (by omega)

@[simp] theorem length_getBytes (m : Memory) (a n : Nat) : (m.getBytes a n).length = n := by
  induction n generalizing a with
  | zero => rfl
  | succ n ih => simp [getBytes, ih]

theorem getElem?_getBytes (m : Memory) (a n k : Nat) :
    (m.getBytes a n)[k]? = if k < n then some (m.get (a + k)) else none := by
  induction n generalizing a k with
  | zero => simp [getBytes]
  | succ n ih =>
    cases k with
    | zero => simp [getBytes]
    | succ k => simp [getBytes, ih, Nat.add_comm, Nat.add_left_comm]

/-- The cells of a byte list lie at its own addresses. -/
theorem mem_ofBytes (a : Nat) (bs : List Byte) (c : Host.Cell) (h : c ∈ ofBytes a bs) :
    a ≤ c.1 ∧ c.1 < a + bs.length ∧ c.2 ≠ 0 := by
  induction bs generalizing a with
  | nil => cases h
  | cons b bs ih =>
    unfold ofBytes at h
    simp only [List.length_cons]
    split at h
    · obtain ⟨h1, h2, h3⟩ := ih (a + 1) h
      exact ⟨by omega, by omega, h3⟩
    · next hb =>
      rcases List.mem_cons.1 h with rfl | h
      · exact ⟨Nat.le_refl _, by simp only; omega, hb⟩
      · obtain ⟨h1, h2, h3⟩ := ih (a + 1) h
        exact ⟨by omega, by omega, h3⟩

theorem wf_ofBytes (a : Nat) (bs : List Byte) (h : a + bs.length ≤ memSize) : (ofBytes a bs).wf := by
  induction bs generalizing a with
  | nil => simp [ofBytes, Memory.wf]
  | cons b bs ih =>
    simp only [List.length_cons] at h
    unfold ofBytes
    split
    · exact ih _ (by omega)
    · next hb =>
      refine (wf_cons _ _).2 ⟨?_, by simp only; omega, hb, ih _ (by omega)⟩
      intro d hd
      have := mem_ofBytes _ _ d hd
      simp only; omega

theorem get_ofBytes (a : Nat) (bs : List Byte) (k : Nat) :
    (ofBytes a bs).get (a + k) = (bs[k]?).getD 0 := by
  induction bs generalizing a k with
  | nil => rfl
  | cons b bs ih =>
    unfold ofBytes
    have low : (ofBytes (a + 1) bs).get a = 0 :=
      get_of_lt _ _ (fun c hc => by have := mem_ofBytes _ _ c hc; omega)
    cases k with
    | zero =>
      split
      · next hb => simp [low, hb]
      · simp [get]
    | succ k =>
      have hk : (ofBytes (a + 1) bs).get (a + (k + 1)) = (bs[k]?).getD 0 := by
        rw [show a + (k + 1) = a + 1 + k by omega]; exact ih (a + 1) k
      split
      · simp [hk]
      · rw [get, if_neg (by simp only; omega)]; simp [hk]

/-- MEM after Reset is in canonical form (R40). -/
theorem wf_ofImage (image : Image) : (ofImage image).wf :=
  wf_ofBytes 0 image.toList (by simp [memSize])

/-- MEM after Reset reads as the image (R40). -/
theorem get_ofImage (image : Image) (a : Nat) (h : a < 4096) : (ofImage image).get a = image[a] := by
  have := get_ofBytes 0 image.toList a
  rw [Nat.zero_add] at this
  simp [ofImage, this, h]

end Sys2Proof.Machine.Memory

namespace Sys2Proof.Machine

theorem outOfRange?_none (a n : Nat) (h : n = 0 ∨ a + n ≤ memSize) : outOfRange? a n = none := by
  unfold outOfRange?
  rw [if_neg]
  omega

theorem outOfRange?_some (a n : Nat) (hn : n ≠ 0) (h : memSize < a + n) :
    outOfRange? a n = some (max a memSize) := by
  unfold outOfRange?
  rw [if_pos ⟨hn, h⟩]

/-- Everything `memRead` can answer. -/
theorem memRead_cases (m : Memory) (a n : Nat) :
    (memRead m a n = .ok (m.getBytes a n) ∧ (n = 0 ∨ a + n ≤ memSize)) ∨
    (memRead m a n = .error (max a memSize) ∧ n ≠ 0 ∧ memSize < a + n) := by
  by_cases h : n = 0 ∨ a + n ≤ memSize
  · exact .inl ⟨by rw [memRead, outOfRange?_none a n h], h⟩
  · have h' : n ≠ 0 ∧ memSize < a + n := by omega
    exact .inr ⟨by rw [memRead, outOfRange?_some a n h'.1 h'.2], h'⟩

/-- Everything `memWrite` of at least one byte can answer. -/
theorem memWrite_cases (m : Memory) (a : Nat) (bs : List Byte) (hn : bs.length ≠ 0) :
    (memWrite m a bs = .ok (m.setBytes a bs) ∧ a + bs.length ≤ memSize) ∨
    (memWrite m a bs = .error (max a memSize) ∧ memSize < a + bs.length) := by
  by_cases h : a + bs.length ≤ memSize
  · exact .inl ⟨by rw [memWrite, outOfRange?_none a _ (.inr h)], h⟩
  · exact .inr ⟨by rw [memWrite, outOfRange?_some a _ hn (by omega)], by omega⟩

/-- A `memWrite` that stores keeps the canonical form. -/
theorem wf_memWrite (m m' : Memory) (a : Nat) (bs : List Byte) (hn : bs.length ≠ 0) (h : m.wf)
    (e : memWrite m a bs = .ok m') : m'.wf := by
  rcases memWrite_cases m a bs hn with ⟨e', hr⟩ | ⟨e', _⟩
  · rw [e'] at e
    cases e
    exact Memory.wf_setBytes m a bs h hr
  · rw [e'] at e
    cases e

/-- The memory of the state after reset is canonical. -/
theorem wf_reset : State.reset.mem.wf := by decide

@[simp] theorem length_lowRegisters (s : State) (x : Reg) : (s.lowRegisters x).length = x.val + 1 := by
  have := x.isLt
  simp [State.lowRegisters]

@[simp] theorem length_decimalDigits (b : Byte) : (decimalDigits b).length = 3 := rfl

end Sys2Proof.Machine
end

