-- ==== Sys2Proof/Laws/State.lean ====
section
/-! SUPPORT. One lemma per field per update of the state, each true by rfl, so that no proof unfolds an
update. -/

namespace Sys2Proof.Machine.State

variable (s : State)

/-! `setV` -/

@[simp] theorem setV_v (x : Reg) (b : Byte) : (s.setV x b).v = s.v.set x b := rfl
@[simp] theorem setV_i (x : Reg) (b : Byte) : (s.setV x b).i = s.i := rfl
@[simp] theorem setV_pc (x : Reg) (b : Byte) : (s.setV x b).pc = s.pc := rfl
@[simp] theorem setV_sp (x : Reg) (b : Byte) : (s.setV x b).sp = s.sp := rfl
@[simp] theorem setV_stack (x : Reg) (b : Byte) : (s.setV x b).stack = s.stack := rfl
@[simp] theorem setV_dt (x : Reg) (b : Byte) : (s.setV x b).dt = s.dt := rfl
@[simp] theorem setV_st (x : Reg) (b : Byte) : (s.setV x b).st = s.st := rfl
@[simp] theorem setV_disp (x : Reg) (b : Byte) : (s.setV x b).disp = s.disp := rfl
@[simp] theorem setV_mem (x : Reg) (b : Byte) : (s.setV x b).mem = s.mem := rfl
@[simp] theorem setV_keys (x : Reg) (b : Byte) : (s.setV x b).keys = s.keys := rfl
@[simp] theorem setV_kprev (x : Reg) (b : Byte) : (s.setV x b).kprev = s.kprev := rfl
@[simp] theorem setV_mode (x : Reg) (b : Byte) : (s.setV x b).mode = s.mode := rfl
@[simp] theorem setV_config (x : Reg) (b : Byte) : (s.setV x b).config = s.config := rfl
@[simp] theorem setV_rnd (x : Reg) (b : Byte) : (s.setV x b).rnd = s.rnd := rfl
@[simp] theorem setV_events (x : Reg) (b : Byte) : (s.setV x b).events = s.events := rfl
@[simp] theorem setV_script (x : Reg) (b : Byte) : (s.setV x b).script = s.script := rfl
@[simp] theorem setV_unscripted (x : Reg) (b : Byte) : (s.setV x b).unscripted = s.unscripted := rfl

/-! `advance` -/

@[simp] theorem advance_v : (s.advance).v = s.v := rfl
@[simp] theorem advance_i : (s.advance).i = s.i := rfl
@[simp] theorem advance_pc : (s.advance).pc = s.pc + 2 := rfl
@[simp] theorem advance_sp : (s.advance).sp = s.sp := rfl
@[simp] theorem advance_stack : (s.advance).stack = s.stack := rfl
@[simp] theorem advance_dt : (s.advance).dt = s.dt := rfl
@[simp] theorem advance_st : (s.advance).st = s.st := rfl
@[simp] theorem advance_disp : (s.advance).disp = s.disp := rfl
@[simp] theorem advance_mem : (s.advance).mem = s.mem := rfl
@[simp] theorem advance_keys : (s.advance).keys = s.keys := rfl
@[simp] theorem advance_kprev : (s.advance).kprev = s.kprev := rfl
@[simp] theorem advance_mode : (s.advance).mode = s.mode := rfl
@[simp] theorem advance_config : (s.advance).config = s.config := rfl
@[simp] theorem advance_rnd : (s.advance).rnd = s.rnd := rfl
@[simp] theorem advance_events : (s.advance).events = s.events := rfl
@[simp] theorem advance_script : (s.advance).script = s.script := rfl
@[simp] theorem advance_unscripted : (s.advance).unscripted = s.unscripted := rfl

/-! `skipIf` -/

@[simp] theorem skipIf_v (c : Bool) : (s.skipIf c).v = s.v := rfl
@[simp] theorem skipIf_i (c : Bool) : (s.skipIf c).i = s.i := rfl
@[simp] theorem skipIf_pc (c : Bool) : (s.skipIf c).pc = s.pc + (if c then 4 else 2) := rfl
@[simp] theorem skipIf_sp (c : Bool) : (s.skipIf c).sp = s.sp := rfl
@[simp] theorem skipIf_stack (c : Bool) : (s.skipIf c).stack = s.stack := rfl
@[simp] theorem skipIf_dt (c : Bool) : (s.skipIf c).dt = s.dt := rfl
@[simp] theorem skipIf_st (c : Bool) : (s.skipIf c).st = s.st := rfl
@[simp] theorem skipIf_disp (c : Bool) : (s.skipIf c).disp = s.disp := rfl
@[simp] theorem skipIf_mem (c : Bool) : (s.skipIf c).mem = s.mem := rfl
@[simp] theorem skipIf_keys (c : Bool) : (s.skipIf c).keys = s.keys := rfl
@[simp] theorem skipIf_kprev (c : Bool) : (s.skipIf c).kprev = s.kprev := rfl
@[simp] theorem skipIf_mode (c : Bool) : (s.skipIf c).mode = s.mode := rfl
@[simp] theorem skipIf_config (c : Bool) : (s.skipIf c).config = s.config := rfl
@[simp] theorem skipIf_rnd (c : Bool) : (s.skipIf c).rnd = s.rnd := rfl
@[simp] theorem skipIf_events (c : Bool) : (s.skipIf c).events = s.events := rfl
@[simp] theorem skipIf_script (c : Bool) : (s.skipIf c).script = s.script := rfl
@[simp] theorem skipIf_unscripted (c : Bool) : (s.skipIf c).unscripted = s.unscripted := rfl

/-! `jumpTo` -/

@[simp] theorem jumpTo_v (a : Word) : (s.jumpTo a).v = s.v := rfl
@[simp] theorem jumpTo_i (a : Word) : (s.jumpTo a).i = s.i := rfl
@[simp] theorem jumpTo_pc (a : Word) : (s.jumpTo a).pc = a := rfl
@[simp] theorem jumpTo_sp (a : Word) : (s.jumpTo a).sp = s.sp := rfl
@[simp] theorem jumpTo_stack (a : Word) : (s.jumpTo a).stack = s.stack := rfl
@[simp] theorem jumpTo_dt (a : Word) : (s.jumpTo a).dt = s.dt := rfl
@[simp] theorem jumpTo_st (a : Word) : (s.jumpTo a).st = s.st := rfl
@[simp] theorem jumpTo_disp (a : Word) : (s.jumpTo a).disp = s.disp := rfl
@[simp] theorem jumpTo_mem (a : Word) : (s.jumpTo a).mem = s.mem := rfl
@[simp] theorem jumpTo_keys (a : Word) : (s.jumpTo a).keys = s.keys := rfl
@[simp] theorem jumpTo_kprev (a : Word) : (s.jumpTo a).kprev = s.kprev := rfl
@[simp] theorem jumpTo_mode (a : Word) : (s.jumpTo a).mode = s.mode := rfl
@[simp] theorem jumpTo_config (a : Word) : (s.jumpTo a).config = s.config := rfl
@[simp] theorem jumpTo_rnd (a : Word) : (s.jumpTo a).rnd = s.rnd := rfl
@[simp] theorem jumpTo_events (a : Word) : (s.jumpTo a).events = s.events := rfl
@[simp] theorem jumpTo_script (a : Word) : (s.jumpTo a).script = s.script := rfl
@[simp] theorem jumpTo_unscripted (a : Word) : (s.jumpTo a).unscripted = s.unscripted := rfl

/-! `raise` -/

@[simp] theorem raise_v (c : FaultCause) (a : Nat) : (s.raise c a).v = s.v := rfl
@[simp] theorem raise_i (c : FaultCause) (a : Nat) : (s.raise c a).i = s.i := rfl
@[simp] theorem raise_pc (c : FaultCause) (a : Nat) : (s.raise c a).pc = s.pc := rfl
@[simp] theorem raise_sp (c : FaultCause) (a : Nat) : (s.raise c a).sp = s.sp := rfl
@[simp] theorem raise_stack (c : FaultCause) (a : Nat) : (s.raise c a).stack = s.stack := rfl
@[simp] theorem raise_dt (c : FaultCause) (a : Nat) : (s.raise c a).dt = s.dt := rfl
@[simp] theorem raise_st (c : FaultCause) (a : Nat) : (s.raise c a).st = s.st := rfl
@[simp] theorem raise_disp (c : FaultCause) (a : Nat) : (s.raise c a).disp = s.disp := rfl
@[simp] theorem raise_mem (c : FaultCause) (a : Nat) : (s.raise c a).mem = s.mem := rfl
@[simp] theorem raise_keys (c : FaultCause) (a : Nat) : (s.raise c a).keys = s.keys := rfl
@[simp] theorem raise_kprev (c : FaultCause) (a : Nat) : (s.raise c a).kprev = s.kprev := rfl
@[simp] theorem raise_mode (c : FaultCause) (a : Nat) : (s.raise c a).mode = .halted c s.pc a := rfl
@[simp] theorem raise_config (c : FaultCause) (a : Nat) : (s.raise c a).config = s.config := rfl
@[simp] theorem raise_rnd (c : FaultCause) (a : Nat) : (s.raise c a).rnd = s.rnd := rfl
@[simp] theorem raise_events (c : FaultCause) (a : Nat) : (s.raise c a).events = s.events := rfl
@[simp] theorem raise_script (c : FaultCause) (a : Nat) : (s.raise c a).script = s.script := rfl
@[simp] theorem raise_unscripted (c : FaultCause) (a : Nat) : (s.raise c a).unscripted = s.unscripted := rfl

/-! `emit` -/

@[simp] theorem emit_v (es : List Event) : (s.emit es).v = s.v := rfl
@[simp] theorem emit_i (es : List Event) : (s.emit es).i = s.i := rfl
@[simp] theorem emit_pc (es : List Event) : (s.emit es).pc = s.pc := rfl
@[simp] theorem emit_sp (es : List Event) : (s.emit es).sp = s.sp := rfl
@[simp] theorem emit_stack (es : List Event) : (s.emit es).stack = s.stack := rfl
@[simp] theorem emit_dt (es : List Event) : (s.emit es).dt = s.dt := rfl
@[simp] theorem emit_st (es : List Event) : (s.emit es).st = s.st := rfl
@[simp] theorem emit_disp (es : List Event) : (s.emit es).disp = s.disp := rfl
@[simp] theorem emit_mem (es : List Event) : (s.emit es).mem = s.mem := rfl
@[simp] theorem emit_keys (es : List Event) : (s.emit es).keys = s.keys := rfl
@[simp] theorem emit_kprev (es : List Event) : (s.emit es).kprev = s.kprev := rfl
@[simp] theorem emit_mode (es : List Event) : (s.emit es).mode = s.mode := rfl
@[simp] theorem emit_config (es : List Event) : (s.emit es).config = s.config := rfl
@[simp] theorem emit_rnd (es : List Event) : (s.emit es).rnd = s.rnd := rfl
@[simp] theorem emit_events (es : List Event) : (s.emit es).events = s.events ++ es := rfl
@[simp] theorem emit_script (es : List Event) : (s.emit es).script = s.script := rfl
@[simp] theorem emit_unscripted (es : List Event) : (s.emit es).unscripted = s.unscripted := rfl

/-! `sample` -/

@[simp] theorem sample_v (k : Keys) (b : Byte) : (s.sample k b).v = s.v := rfl
@[simp] theorem sample_i (k : Keys) (b : Byte) : (s.sample k b).i = s.i := rfl
@[simp] theorem sample_pc (k : Keys) (b : Byte) : (s.sample k b).pc = s.pc := rfl
@[simp] theorem sample_sp (k : Keys) (b : Byte) : (s.sample k b).sp = s.sp := rfl
@[simp] theorem sample_stack (k : Keys) (b : Byte) : (s.sample k b).stack = s.stack := rfl
@[simp] theorem sample_dt (k : Keys) (b : Byte) : (s.sample k b).dt = s.dt := rfl
@[simp] theorem sample_st (k : Keys) (b : Byte) : (s.sample k b).st = s.st := rfl
@[simp] theorem sample_disp (k : Keys) (b : Byte) : (s.sample k b).disp = s.disp := rfl
@[simp] theorem sample_mem (k : Keys) (b : Byte) : (s.sample k b).mem = s.mem := rfl
@[simp] theorem sample_keys (k : Keys) (b : Byte) : (s.sample k b).keys = k := rfl
@[simp] theorem sample_kprev (k : Keys) (b : Byte) : (s.sample k b).kprev = s.kprev := rfl
@[simp] theorem sample_mode (k : Keys) (b : Byte) : (s.sample k b).mode = s.mode := rfl
@[simp] theorem sample_config (k : Keys) (b : Byte) : (s.sample k b).config = s.config := rfl
@[simp] theorem sample_rnd (k : Keys) (b : Byte) : (s.sample k b).rnd = b := rfl
@[simp] theorem sample_events (k : Keys) (b : Byte) : (s.sample k b).events = [] := rfl
@[simp] theorem sample_script (k : Keys) (b : Byte) : (s.sample k b).script = s.script := rfl
@[simp] theorem sample_unscripted (k : Keys) (b : Byte) : (s.sample k b).unscripted = s.unscripted := rfl

/-! `endCycle` -/

@[simp] theorem endCycle_v : (s.endCycle).v = s.v := rfl
@[simp] theorem endCycle_i : (s.endCycle).i = s.i := rfl
@[simp] theorem endCycle_pc : (s.endCycle).pc = s.pc := rfl
@[simp] theorem endCycle_sp : (s.endCycle).sp = s.sp := rfl
@[simp] theorem endCycle_stack : (s.endCycle).stack = s.stack := rfl
@[simp] theorem endCycle_dt : (s.endCycle).dt = s.dt := rfl
@[simp] theorem endCycle_st : (s.endCycle).st = s.st := rfl
@[simp] theorem endCycle_disp : (s.endCycle).disp = s.disp := rfl
@[simp] theorem endCycle_mem : (s.endCycle).mem = s.mem := rfl
@[simp] theorem endCycle_keys : (s.endCycle).keys = s.keys := rfl
@[simp] theorem endCycle_kprev : (s.endCycle).kprev = s.keys := rfl
@[simp] theorem endCycle_mode : (s.endCycle).mode = s.mode := rfl
@[simp] theorem endCycle_config : (s.endCycle).config = s.config := rfl
@[simp] theorem endCycle_rnd : (s.endCycle).rnd = s.rnd := rfl
@[simp] theorem endCycle_events : (s.endCycle).events = s.events := rfl
@[simp] theorem endCycle_script : (s.endCycle).script = s.script := rfl
@[simp] theorem endCycle_unscripted : (s.endCycle).unscripted = s.unscripted := rfl

/-! `tick` -/

@[simp] theorem tick_v : (s.tick).v = s.v := rfl
@[simp] theorem tick_i : (s.tick).i = s.i := rfl
@[simp] theorem tick_pc : (s.tick).pc = s.pc := rfl
@[simp] theorem tick_sp : (s.tick).sp = s.sp := rfl
@[simp] theorem tick_stack : (s.tick).stack = s.stack := rfl
@[simp] theorem tick_dt : (s.tick).dt = decay s.dt := rfl
@[simp] theorem tick_st : (s.tick).st = decay s.st := rfl
@[simp] theorem tick_disp : (s.tick).disp = s.disp := rfl
@[simp] theorem tick_mem : (s.tick).mem = s.mem := rfl
@[simp] theorem tick_keys : (s.tick).keys = s.keys := rfl
@[simp] theorem tick_kprev : (s.tick).kprev = s.kprev := rfl
@[simp] theorem tick_mode : (s.tick).mode = s.mode := rfl
@[simp] theorem tick_config : (s.tick).config = s.config := rfl
@[simp] theorem tick_rnd : (s.tick).rnd = s.rnd := rfl
@[simp] theorem tick_events : (s.tick).events = s.events := rfl
@[simp] theorem tick_script : (s.tick).script = s.script := rfl
@[simp] theorem tick_unscripted : (s.tick).unscripted = s.unscripted := rfl

/-! `ticks` -/

@[simp] theorem ticks_v (n : Nat) : (s.ticks n).v = s.v := rfl
@[simp] theorem ticks_i (n : Nat) : (s.ticks n).i = s.i := rfl
@[simp] theorem ticks_pc (n : Nat) : (s.ticks n).pc = s.pc := rfl
@[simp] theorem ticks_sp (n : Nat) : (s.ticks n).sp = s.sp := rfl
@[simp] theorem ticks_stack (n : Nat) : (s.ticks n).stack = s.stack := rfl
@[simp] theorem ticks_dt (n : Nat) : (s.ticks n).dt = decayBy n s.dt := rfl
@[simp] theorem ticks_st (n : Nat) : (s.ticks n).st = decayBy n s.st := rfl
@[simp] theorem ticks_disp (n : Nat) : (s.ticks n).disp = s.disp := rfl
@[simp] theorem ticks_mem (n : Nat) : (s.ticks n).mem = s.mem := rfl
@[simp] theorem ticks_keys (n : Nat) : (s.ticks n).keys = s.keys := rfl
@[simp] theorem ticks_kprev (n : Nat) : (s.ticks n).kprev = s.kprev := rfl
@[simp] theorem ticks_mode (n : Nat) : (s.ticks n).mode = s.mode := rfl
@[simp] theorem ticks_config (n : Nat) : (s.ticks n).config = s.config := rfl
@[simp] theorem ticks_rnd (n : Nat) : (s.ticks n).rnd = s.rnd := rfl
@[simp] theorem ticks_events (n : Nat) : (s.ticks n).events = s.events := rfl
@[simp] theorem ticks_script (n : Nat) : (s.ticks n).script = s.script := rfl
@[simp] theorem ticks_unscripted (n : Nat) : (s.ticks n).unscripted = s.unscripted := rfl

/-! `setLowRegisters` (every field but V) -/

@[simp] theorem setLowRegisters_i (bs : List Byte) : (s.setLowRegisters bs).i = s.i := rfl
@[simp] theorem setLowRegisters_pc (bs : List Byte) : (s.setLowRegisters bs).pc = s.pc := rfl
@[simp] theorem setLowRegisters_sp (bs : List Byte) : (s.setLowRegisters bs).sp = s.sp := rfl
@[simp] theorem setLowRegisters_stack (bs : List Byte) : (s.setLowRegisters bs).stack = s.stack := rfl
@[simp] theorem setLowRegisters_dt (bs : List Byte) : (s.setLowRegisters bs).dt = s.dt := rfl
@[simp] theorem setLowRegisters_st (bs : List Byte) : (s.setLowRegisters bs).st = s.st := rfl
@[simp] theorem setLowRegisters_disp (bs : List Byte) : (s.setLowRegisters bs).disp = s.disp := rfl
@[simp] theorem setLowRegisters_mem (bs : List Byte) : (s.setLowRegisters bs).mem = s.mem := rfl
@[simp] theorem setLowRegisters_keys (bs : List Byte) : (s.setLowRegisters bs).keys = s.keys := rfl
@[simp] theorem setLowRegisters_kprev (bs : List Byte) : (s.setLowRegisters bs).kprev = s.kprev := rfl
@[simp] theorem setLowRegisters_mode (bs : List Byte) : (s.setLowRegisters bs).mode = s.mode := rfl
@[simp] theorem setLowRegisters_config (bs : List Byte) : (s.setLowRegisters bs).config = s.config := rfl
@[simp] theorem setLowRegisters_rnd (bs : List Byte) : (s.setLowRegisters bs).rnd = s.rnd := rfl
@[simp] theorem setLowRegisters_events (bs : List Byte) : (s.setLowRegisters bs).events = s.events := rfl
@[simp] theorem setLowRegisters_script (bs : List Byte) : (s.setLowRegisters bs).script = s.script := rfl
@[simp] theorem setLowRegisters_unscripted (bs : List Byte) : (s.setLowRegisters bs).unscripted = s.unscripted := rfl

/-! `postIncrement` -/

@[simp] theorem postIncrement_v (x : Reg) : (s.postIncrement x).v = s.v := rfl
@[simp] theorem postIncrement_pc (x : Reg) : (s.postIncrement x).pc = s.pc := rfl
@[simp] theorem postIncrement_sp (x : Reg) : (s.postIncrement x).sp = s.sp := rfl
@[simp] theorem postIncrement_stack (x : Reg) : (s.postIncrement x).stack = s.stack := rfl
@[simp] theorem postIncrement_dt (x : Reg) : (s.postIncrement x).dt = s.dt := rfl
@[simp] theorem postIncrement_st (x : Reg) : (s.postIncrement x).st = s.st := rfl
@[simp] theorem postIncrement_disp (x : Reg) : (s.postIncrement x).disp = s.disp := rfl
@[simp] theorem postIncrement_mem (x : Reg) : (s.postIncrement x).mem = s.mem := rfl
@[simp] theorem postIncrement_keys (x : Reg) : (s.postIncrement x).keys = s.keys := rfl
@[simp] theorem postIncrement_kprev (x : Reg) : (s.postIncrement x).kprev = s.kprev := rfl
@[simp] theorem postIncrement_mode (x : Reg) : (s.postIncrement x).mode = s.mode := rfl
@[simp] theorem postIncrement_config (x : Reg) : (s.postIncrement x).config = s.config := rfl
@[simp] theorem postIncrement_rnd (x : Reg) : (s.postIncrement x).rnd = s.rnd := rfl
@[simp] theorem postIncrement_events (x : Reg) : (s.postIncrement x).events = s.events := rfl
@[simp] theorem postIncrement_script (x : Reg) : (s.postIncrement x).script = s.script := rfl
@[simp] theorem postIncrement_unscripted (x : Reg) : (s.postIncrement x).unscripted = s.unscripted := rfl

theorem postIncrement_i (x : Reg) : (s.postIncrement x).i =
    if s.config.loadStoreIncrementsI then s.i + BitVec.ofNat 16 (x.val + 1) else s.i := rfl

end Sys2Proof.Machine.State
end

