-- ==== Sys2Proof/Laws/Operands.lean ====
section
/-! SUPPORT. Reads after writes of the general registers, and what the operand forms are as numbers. -/

namespace Sys2Proof.Machine

theorem State.getV_eq (s : State) (x : Reg) : s.getV x = s.v[x] := rfl

theorem getElem_set_reg (v : Vector Byte 16) (x r : Reg) (b : Byte) :
    (v.set x b)[r] = if r = x then b else v[r] := by
  rw [Fin.getElem_fin, Vector.getElem_set]
  by_cases h : r = x
  · simp [h]
  · rw [if_neg (fun e => h (Fin.ext e.symm)), if_neg h, Fin.getElem_fin]

@[simp] theorem State.getV_setV (s : State) (x r : Reg) (b : Byte) :
    (s.setV x b).getV r = if r = x then b else s.getV r := getElem_set_reg s.v x r b

/-- VF after a flag-setting write is the flag, X = 15 included (R132). -/
@[simp] theorem State.getV_setResultAndFlag_flag (s : State) (x : Reg) (a f : Byte) :
    (s.setResultAndFlag x a f).getV regF = f := by
  simp [State.setResultAndFlag]

theorem State.getV_setResultAndFlag (s : State) (x r : Reg) (a f : Byte) (h : r ≠ regF) :
    (s.setResultAndFlag x a f).getV r = if r = x then a else s.getV r := by
  simp [State.setResultAndFlag, h]

theorem lowNibble_val (b : Byte) : (lowNibble b).val = b.toNat % 16 := by
  simp [lowNibble]

theorem topNibble_val (nnn : BitVec 12) : (topNibble nnn).val = nnn.toNat / 256 := by
  simp [topNibble, Nat.shiftRight_eq_div_pow]
  omega

@[simp] theorem addressOf_toNat (nnn : BitVec 12) : (addressOf nnn).toNat = nnn.toNat := by
  have := nnn.isLt
  simp [addressOf]
  omega

theorem flagByte_toNat (b : Bool) : (flagByte b).toNat = if b then 1 else 0 := by
  cases b <;> rfl

theorem flagByte_zero_or_one (b : Bool) : flagByte b = 0 ∨ flagByte b = 1 := by
  cases b
  · exact .inl rfl
  · exact .inr rfl

theorem shiftedOutRight_toNat (b : Byte) : (shiftedOutRight b).toNat = b.toNat % 2 := by
  rw [shiftedOutRight, flagByte_toNat, BitVec.getLsbD, Nat.testBit_zero]
  have := Nat.mod_two_eq_zero_or_one b.toNat
  rcases this with h | h <;> simp [h]

theorem shiftedOutLeft_toNat (b : Byte) : (shiftedOutLeft b).toNat = b.toNat / 128 := by
  have hb := b.isLt
  rw [shiftedOutLeft, flagByte_toNat, BitVec.getLsbD, Nat.testBit_eq_decide_div_mod_eq]
  simp
  split <;> omega

end Sys2Proof.Machine
end

