-- ==== Sys2Proof/Laws/Exec.lean ====
section
/-! SUPPORT. What the shared operations of the meanings can do, said once: the call stack, the draw, the
block transfers; and that every instruction has a next state. -/

namespace Sys2Proof.Machine

open Host (Outcome)

/-- Pushing with n entries in use, n < 16 (R103). -/
theorem push_of_room (s : State) (a : Word) (n : Fin 16) (h : s.sp = n.castSucc) :
    s.push a = some { s with stack := s.stack.set n a, sp := n.succ } := by
  have hv : s.sp.val = n.val := by rw [h]; rfl
  unfold State.push
  rw [dif_pos (by omega)]
  simp only [hv]
  rfl

/-- Pushing on a full stack (R201). -/
theorem push_of_full (s : State) (a : Word) (h : s.sp = 16) : s.push a = none := by
  unfold State.push
  rw [dif_neg (by rw [h]; decide)]

/-- Popping with n + 1 entries in use (R101). -/
theorem pop_of_some (s : State) (n : Fin 16) (h : s.sp = n.succ) :
    s.pop = some (s.stack[n], { s with sp := n.castSucc }) := by
  have hv : s.sp.val = n.val + 1 := by rw [h]; rfl
  unfold State.pop
  rw [dif_pos (by omega)]
  simp only [hv]
  rfl

/-- Popping an empty stack (R202). -/
theorem pop_of_empty (s : State) (h : s.sp = 0) : s.pop = none := by
  unfold State.pop
  rw [dif_neg (by rw [h]; decide)]

/-- SP is full or has room; it is empty or has an entry. -/
theorem sp_full_or_room (n : Fin 17) : n = 16 ∨ ∃ k : Fin 16, n = k.castSucc := by
  by_cases h : n.val = 16
  · exact .inl (Fin.ext h)
  · exact .inr ⟨⟨n.val, by omega⟩, Fin.ext rfl⟩

theorem sp_empty_or_some (n : Fin 17) : n = 0 ∨ ∃ k : Fin 16, n = k.succ := by
  by_cases h : n.val = 0
  · exact .inl (Fin.ext h)
  · exact .inr ⟨⟨n.val - 1, by omega⟩, Fin.ext (by simp; omega)⟩

/-- A register after a block load: loaded from the list when the list reaches it (R145). -/
theorem setLowRegisters_v (s : State) (bytes : List Byte) (k : Fin 16) :
    (s.setLowRegisters bytes).v[k] = (bytes[k.val]?).getD s.v[k] := by
  simp [State.setLowRegisters]

/-- The k-th byte of a block store is V[k] (R144). -/
theorem getElem?_lowRegisters (s : State) (x k : Fin 16) (h : k ≤ x) :
    (s.lowRegisters x)[k.val]? = some s.v[k] := by
  have : k.val < x.val + 1 := by omega
  simp [State.lowRegisters, this]

/-- Every instruction answers a next state, whatever the state (R206, R221). -/
theorem exec_next (i : Instr) (s : State) : ∃ t, exec i s = .next t := by
  cases i <;> simp only [exec] <;> try exact ⟨_, rfl⟩
  case ret => unfold execRet; split <;> exact ⟨_, rfl⟩
  case call => unfold execCall; split <;> exact ⟨_, rfl⟩
  case drwVxVyN => unfold execDrwVxVyN; split <;> exact ⟨_, rfl⟩
  case ldBVx => unfold execLdBVx; split <;> exact ⟨_, rfl⟩
  case ldMemVx => unfold execLdMemVx; split <;> exact ⟨_, rfl⟩
  case ldVxMem => unfold execLdVxMem; split <;> exact ⟨_, rfl⟩

/-! The instructions that can fault, each by cases on its own test. -/

theorem execRet_cases (s : State) :
    (s.sp = 0 ∧ execRet s = .next { s with mode := .halted .stackUnderflow s.pc 0 }) ∨
    (∃ n : Fin 16, s.sp = n.succ ∧
      execRet s = .next { s with pc := s.stack[n], sp := n.castSucc }) := by
  rcases sp_empty_or_some s.sp with h | ⟨n, h⟩
  · exact .inl ⟨h, by rw [execRet, pop_of_empty s h]; rfl⟩
  · exact .inr ⟨n, h, by rw [execRet, pop_of_some s n h]; rfl⟩

theorem execCall_cases (nnn : BitVec 12) (s : State) :
    (s.sp = 16 ∧ execCall nnn s = .next { s with mode := .halted .stackOverflow s.pc 0 }) ∨
    (∃ n : Fin 16, s.sp = n.castSucc ∧ execCall nnn s = .next
      { s with stack := s.stack.set n (s.pc + 2), sp := n.succ, pc := addressOf nnn }) := by
  rcases sp_full_or_room s.sp with h | ⟨n, h⟩
  · exact .inl ⟨h, by rw [execCall, push_of_full s _ h]; rfl⟩
  · exact .inr ⟨n, h, by rw [execCall, push_of_room s _ n h]; rfl⟩

theorem execDrwVxVyN_cases (x y : Reg) (n : BitVec 4) (s : State) :
    ((n.toNat = 0 ∨ s.i.toNat + n.toNat ≤ memSize) ∧
      execDrwVxVyN x y n s =
        .next (s.draw x y (s.mem.getBytes s.i.toNat n.toNat)).advance) ∨
    (n.toNat ≠ 0 ∧ memSize < s.i.toNat + n.toNat ∧ execDrwVxVyN x y n s =
      .next { s with mode := .halted .dataOutOfRange s.pc (max s.i.toNat memSize) }) := by
  rcases memRead_cases s.mem s.i.toNat n.toNat with ⟨e, h⟩ | ⟨e, h⟩
  · exact .inl ⟨h, by rw [execDrwVxVyN, e]⟩
  · exact .inr ⟨h.1, h.2, by rw [execDrwVxVyN, e]; rfl⟩

theorem execLdBVx_cases (x : Reg) (s : State) :
    (s.i.toNat + 3 ≤ memSize ∧ execLdBVx x s = .next
      { s with mem := s.mem.setBytes s.i.toNat (decimalDigits (s.getV x)), pc := s.pc + 2 }) ∨
    (memSize < s.i.toNat + 3 ∧ execLdBVx x s =
      .next { s with mode := .halted .dataOutOfRange s.pc (max s.i.toNat memSize) }) := by
  rcases memWrite_cases s.mem s.i.toNat (decimalDigits (s.getV x)) (by simp) with ⟨e, h⟩ | ⟨e, h⟩
  · exact .inl ⟨by simpa using h, by rw [execLdBVx, e]; rfl⟩
  · exact .inr ⟨by simpa using h, by rw [execLdBVx, e]; rfl⟩

/-- The post-increment of a block transfer as a record: only I may change (R144, R145). -/
theorem postIncrement_eq (s : State) (x : Reg) :
    s.postIncrement x = { s with i := (s.postIncrement x).i } := rfl

/-- I after an in-range block transfer (R144, R145). -/
theorem postIncrement_i_toNat (s : State) (x : Reg) (h : s.i.toNat + (x.val + 1) ≤ memSize) :
    (s.config.loadStoreIncrementsI = false → (s.postIncrement x).i = s.i) ∧
    (s.config.loadStoreIncrementsI = true →
      (s.postIncrement x).i.toNat = s.i.toNat + x.val + 1) := by
  unfold memSize at h
  constructor <;> intro hc <;> rw [State.postIncrement_i, hc]
  · rfl
  · simp
    omega

theorem execLdMemVx_cases (x : Reg) (s : State) :
    (s.i.toNat + (x.val + 1) ≤ memSize ∧ execLdMemVx x s = .next
      { s with mem := s.mem.setBytes s.i.toNat (s.lowRegisters x)
               i := (s.postIncrement x).i, pc := s.pc + 2 }) ∨
    (memSize < s.i.toNat + (x.val + 1) ∧ execLdMemVx x s =
      .next { s with mode := .halted .dataOutOfRange s.pc (max s.i.toNat memSize) }) := by
  rcases memWrite_cases s.mem s.i.toNat (s.lowRegisters x) (by simp) with ⟨e, h⟩ | ⟨e, h⟩
  · refine .inl ⟨by simpa using h, ?_⟩
    rw [execLdMemVx, e]
    rfl
  · exact .inr ⟨by simpa using h, by rw [execLdMemVx, e]; rfl⟩

theorem execLdVxMem_cases (x : Reg) (s : State) :
    (s.i.toNat + (x.val + 1) ≤ memSize ∧ execLdVxMem x s = .next
      { s with v := (s.setLowRegisters (s.mem.getBytes s.i.toNat (x.val + 1))).v
               i := (s.postIncrement x).i, pc := s.pc + 2 }) ∨
    (memSize < s.i.toNat + (x.val + 1) ∧ execLdVxMem x s =
      .next { s with mode := .halted .dataOutOfRange s.pc (max s.i.toNat memSize) }) := by
  rcases memRead_cases s.mem s.i.toNat (x.val + 1) with ⟨e, h⟩ | ⟨e, h⟩
  · refine .inl ⟨by omega, ?_⟩
    rw [execLdVxMem, e]
    rfl
  · exact .inr ⟨h.2, by rw [execLdVxMem, e]; rfl⟩

/-- Everything a draw whose sprite bytes are read does (R161, R163, R164). -/
theorem draw_spec (s : State) (x y : Reg) (bs : List Byte) (h : bs.length ≤ 32) :
    let ts := spriteTargets s.config.edgeMode (s.getV x).toNat (s.getV y).toNat bs
    ∃ d : Display, s.draw x y bs =
      { s with
        disp := d
        v := s.v.set regF (flagByte (ts.any (fun p => s.disp.cell p.1 p.2)))
        events := s.events ++ ts.map (fun p => .pixelChanged p.1 p.2 (!s.disp.cell p.1 p.2)) } ∧
      ∀ r c, d.cell r c = if (r, c) ∈ ts then !s.disp.cell r c else s.disp.cell r c := by
  intro ts
  obtain ⟨hd, hc, he⟩ := blit_spec s.disp ts (nodup_spriteTargets _ _ _ bs h)
  refine ⟨(blit s.disp ts).disp, ?_, hd⟩
  simp only [State.draw, State.setV, State.emit]
  rw [hc, he]

/-- What a draw's targets are, said of memory (R161, R162). -/
theorem mem_drawTargets (s : State) (x y : Reg) (n : BitVec 4) (p : Fin 32 × Fin 64) :
    p ∈ spriteTargets s.config.edgeMode (s.getV x).toNat (s.getV y).toNat
        (s.mem.getBytes s.i.toNat n.toNat) ↔
      ∃ row col : Nat, row < n.toNat ∧ col < 8 ∧
        (s.mem.get (s.i.toNat + row)).getLsbD (7 - col) = true ∧
        target s.config.edgeMode ((s.getV x).toNat + col) ((s.getV y).toNat + row) = some p := by
  rw [mem_spriteTargets]
  constructor
  · rintro ⟨row, col, b, hc, hb, hbit, ht⟩
    rw [Memory.getElem?_getBytes] at hb
    split at hb
    · next hr =>
      injection hb with hb
      exact ⟨row, col, hr, hc, hb ▸ hbit, ht⟩
    · cases hb
  · rintro ⟨row, col, hr, hc, hbit, ht⟩
    exact ⟨row, col, _, hc, by rw [Memory.getElem?_getBytes, if_pos hr], hbit, ht⟩

end Sys2Proof.Machine
end

