-- ==== Sys2Proof/Laws/PerInstr.lean ====
section
/-! SUPPORT. Statements made per instruction: the family FamilyNibble, about an instruction as syntax. -/

namespace Sys2Proof.Laws.FamilyNibble

/-- The value of nibble 1 of an instruction's row of the opcode map (spec/30_encoding.md R77, R78). -/
def nibble : Instr → BitVec 4
  | .cls => 0x0
  | .ret => 0x0
  | .jp _ => 0x1
  | .call _ => 0x2
  | .seVxNn _ _ => 0x3
  | .sneVxNn _ _ => 0x4
  | .seVxVy _ _ => 0x5
  | .ldVxNn _ _ => 0x6
  | .addVxNn _ _ => 0x7
  | .ldVxVy _ _ => 0x8
  | .orVxVy _ _ => 0x8
  | .andVxVy _ _ => 0x8
  | .xorVxVy _ _ => 0x8
  | .addVxVy _ _ => 0x8
  | .subVxVy _ _ => 0x8
  | .shrVxVy _ _ => 0x8
  | .subnVxVy _ _ => 0x8
  | .shlVxVy _ _ => 0x8
  | .sneVxVy _ _ => 0x9
  | .ldINnn _ => 0xA
  | .jpV0Nnn _ => 0xB
  | .rndVxNn _ _ => 0xC
  | .drwVxVyN _ _ _ => 0xD
  | .skpVx _ => 0xE
  | .sknpVx _ => 0xE
  | .ldVxDt _ => 0xF
  | .ldVxK _ => 0xF
  | .ldDtVx _ => 0xF
  | .ldStVx _ => 0xF
  | .addIVx _ => 0xF
  | .ldFVx _ => 0xF
  | .ldBVx _ => 0xF
  | .ldMemVx _ => 0xF
  | .ldVxMem _ => 0xF
  | .nop0 _ => 0x0
  | .nop5 _ => 0x5
  | .nop8 _ => 0x8
  | .nop9 _ => 0x9
  | .nopE _ => 0xE
  | .nopF _ => 0xF

/-- Nibble 1 of the encoding is the row's family nibble. -/
def Statement (i : Instr) : Prop := Sys2Proof.family (encode i) = nibble i

theorem cls : Statement Instr.cls := by unfold Statement; decide
theorem ret : Statement Instr.ret := by unfold Statement; decide
theorem jp (nnn : BitVec 12) : Statement (Instr.jp nnn) := by simp [Statement, nibble, encode]
theorem call (nnn : BitVec 12) : Statement (Instr.call nnn) := by simp [Statement, nibble, encode]
theorem seVxNn (x : Reg) (nn : Byte) : Statement (Instr.seVxNn x nn) := by simp [Statement, nibble, encode]
theorem sneVxNn (x : Reg) (nn : Byte) : Statement (Instr.sneVxNn x nn) := by simp [Statement, nibble, encode]
theorem seVxVy (x y : Reg) : Statement (Instr.seVxVy x y) := by simp [Statement, nibble, encode]
theorem ldVxNn (x : Reg) (nn : Byte) : Statement (Instr.ldVxNn x nn) := by simp [Statement, nibble, encode]
theorem addVxNn (x : Reg) (nn : Byte) : Statement (Instr.addVxNn x nn) := by simp [Statement, nibble, encode]
theorem ldVxVy (x y : Reg) : Statement (Instr.ldVxVy x y) := by simp [Statement, nibble, encode]
theorem orVxVy (x y : Reg) : Statement (Instr.orVxVy x y) := by simp [Statement, nibble, encode]
theorem andVxVy (x y : Reg) : Statement (Instr.andVxVy x y) := by simp [Statement, nibble, encode]
theorem xorVxVy (x y : Reg) : Statement (Instr.xorVxVy x y) := by simp [Statement, nibble, encode]
theorem addVxVy (x y : Reg) : Statement (Instr.addVxVy x y) := by simp [Statement, nibble, encode]
theorem subVxVy (x y : Reg) : Statement (Instr.subVxVy x y) := by simp [Statement, nibble, encode]
theorem shrVxVy (x y : Reg) : Statement (Instr.shrVxVy x y) := by simp [Statement, nibble, encode]
theorem subnVxVy (x y : Reg) : Statement (Instr.subnVxVy x y) := by simp [Statement, nibble, encode]
theorem shlVxVy (x y : Reg) : Statement (Instr.shlVxVy x y) := by simp [Statement, nibble, encode]
theorem sneVxVy (x y : Reg) : Statement (Instr.sneVxVy x y) := by simp [Statement, nibble, encode]
theorem ldINnn (nnn : BitVec 12) : Statement (Instr.ldINnn nnn) := by simp [Statement, nibble, encode]
theorem jpV0Nnn (nnn : BitVec 12) : Statement (Instr.jpV0Nnn nnn) := by simp [Statement, nibble, encode]
theorem rndVxNn (x : Reg) (nn : Byte) : Statement (Instr.rndVxNn x nn) := by simp [Statement, nibble, encode]
theorem drwVxVyN (x y : Reg) (n : BitVec 4) : Statement (Instr.drwVxVyN x y n) := by simp [Statement, nibble, encode]
theorem skpVx (x : Reg) : Statement (Instr.skpVx x) := by simp [Statement, nibble, encode]
theorem sknpVx (x : Reg) : Statement (Instr.sknpVx x) := by simp [Statement, nibble, encode]
theorem ldVxDt (x : Reg) : Statement (Instr.ldVxDt x) := by simp [Statement, nibble, encode]
theorem ldVxK (x : Reg) : Statement (Instr.ldVxK x) := by simp [Statement, nibble, encode]
theorem ldDtVx (x : Reg) : Statement (Instr.ldDtVx x) := by simp [Statement, nibble, encode]
theorem ldStVx (x : Reg) : Statement (Instr.ldStVx x) := by simp [Statement, nibble, encode]
theorem addIVx (x : Reg) : Statement (Instr.addIVx x) := by simp [Statement, nibble, encode]
theorem ldFVx (x : Reg) : Statement (Instr.ldFVx x) := by simp [Statement, nibble, encode]
theorem ldBVx (x : Reg) : Statement (Instr.ldBVx x) := by simp [Statement, nibble, encode]
theorem ldMemVx (x : Reg) : Statement (Instr.ldMemVx x) := by simp [Statement, nibble, encode]
theorem ldVxMem (x : Reg) : Statement (Instr.ldVxMem x) := by simp [Statement, nibble, encode]
theorem nop0 (low : BitVec 12) : Statement (Instr.nop0 low) := by simp [Statement, nibble, encode]
theorem nop5 (low : BitVec 12) : Statement (Instr.nop5 low) := by simp [Statement, nibble, encode]
theorem nop8 (low : BitVec 12) : Statement (Instr.nop8 low) := by simp [Statement, nibble, encode]
theorem nop9 (low : BitVec 12) : Statement (Instr.nop9 low) := by simp [Statement, nibble, encode]
theorem nopE (low : BitVec 12) : Statement (Instr.nopE low) := by simp [Statement, nibble, encode]
theorem nopF (low : BitVec 12) : Statement (Instr.nopF low) := by simp [Statement, nibble, encode]

end Sys2Proof.Laws.FamilyNibble
end

