-- ==== Sys2Proof/Laws/Step.lean ====
section
/-! SUPPORT. The step by cases: the fetch, the engine in each MODE, the Cycle, and each of the host's moves;
the timers as numbers. -/

namespace Sys2Proof.Machine

open Host (Outcome)

theorem decay_toNat (t : Byte) : (decay t).toNat = t.toNat - 1 := by
  unfold decay
  have := t.isLt
  split
  · next h => simp [h]
  · next h =>
    have h0 : t.toNat ≠ 0 := fun e => h (BitVec.eq_of_toNat_eq (by simpa using e))
    rw [BitVec.toNat_sub]
    simp
    omega

theorem decayBy_toNat (n : Nat) (t : Byte) : (decayBy n t).toNat = t.toNat - n := by
  have := t.isLt
  simp [decayBy]
  omega

@[simp] theorem State.ticks_zero (s : State) : s.ticks 0 = s := by
  simp [State.ticks, decayBy]

/-- n + 1 Ticks are one Tick and then n (R215). -/
theorem State.ticks_succ (n : Nat) (s : State) : s.ticks (n + 1) = s.tick.ticks n := by
  have h : ∀ t : Byte, decayBy (n + 1) t = decayBy n (decay t) := fun t => by
    apply BitVec.eq_of_toNat_eq
    rw [decayBy_toNat, decayBy_toNat, decay_toNat]
    omega
  simp [State.ticks, State.tick, h]

/-- Everything the fetch can answer (R52, R203). -/
theorem fetch_cases (s : State) :
    (s.pc.toNat + 1 < memSize ∧
      fetch s = .ok (wordOfBytes (s.mem.get s.pc.toNat) (s.mem.get (s.pc.toNat + 1)))) ∨
    (memSize ≤ s.pc.toNat + 1 ∧ fetch s = .error (max s.pc.toNat memSize)) := by
  rcases memRead_cases s.mem s.pc.toNat 2 with ⟨e, h⟩ | ⟨e, h⟩
  · exact .inl ⟨by omega, by rw [fetch, e]; rfl⟩
  · exact .inr ⟨by omega, by rw [fetch, e]⟩

/-- The lowest new key is new, and no lower key is (R183). -/
theorem newKey?_some (keys kprev : Keys) (k : Fin 16) :
    newKey? keys kprev = some k ↔
      (keys[k] = true ∧ kprev[k] = false) ∧
      ∀ j : Fin 16, j < k → ¬(keys[j] = true ∧ kprev[j] = false) := by
  rw [newKey?, List.find?_eq_some_iff_getElem]
  simp only [List.getElem_finRange, Bool.and_eq_true, Bool.not_eq_true', List.length_finRange]
  constructor
  · rintro ⟨hk, n, hn, rfl, hlow⟩
    refine ⟨hk, fun j hj hnew => ?_⟩
    have := hlow j.val hj
    simp [hnew.1, hnew.2] at this
  · rintro ⟨hk, hlow⟩
    refine ⟨hk, k.val, k.isLt, rfl, fun j hj => ?_⟩
    have := hlow ⟨j, by omega⟩ hj
    simpa using this

theorem newKey?_none (keys kprev : Keys) :
    newKey? keys kprev = none ↔ ∀ k : Fin 16, ¬(keys[k] = true ∧ kprev[k] = false) := by
  simp [newKey?]

/-! The engine in each MODE (R82). -/

/-- Running, both bytes in range: the word at PC is executed. -/
theorem engine_of_running (s : State) (hm : s.mode = .running) (hp : s.pc.toNat + 1 < memSize) :
    engine s =
      exec (decode (wordOfBytes (s.mem.get s.pc.toNat) (s.mem.get (s.pc.toNat + 1)))) s := by
  rcases fetch_cases s with ⟨-, hf⟩ | ⟨h, -⟩
  · simp only [engine, hm, runOne, hf]
  · omega

/-- Running, a byte of the fetch out of range (R203). -/
theorem engine_of_fetchFault (s : State) (hm : s.mode = .running) (hp : memSize ≤ s.pc.toNat + 1) :
    engine s = .next (s.raise .fetchOutOfRange (max s.pc.toNat memSize)) := by
  rcases fetch_cases s with ⟨h, -⟩ | ⟨-, hf⟩
  · omega
  · simp only [engine, hm, runOne, hf]

theorem engine_of_awaiting (s : State) (x : Reg) (hm : s.mode = .awaitingKey x) :
    engine s = .next (s.pollKey x) := by
  simp only [engine, hm]

theorem engine_of_halted (s : State) (c : FaultCause) (p : Word) (a : Nat)
    (hm : s.mode = .halted c p a) : engine s = .next s := by
  simp only [engine, hm]

theorem pollKey_of_new (s : State) (x : Reg) (k : Fin 16) (h : newKey? s.keys s.kprev = some k) :
    s.pollKey x =
      { s with v := s.v.set x (BitVec.ofNat 8 k.val), pc := s.pc + 2, mode := .running } := by
  simp only [State.pollKey, h]
  rfl

theorem pollKey_of_none (s : State) (x : Reg) (h : newKey? s.keys s.kprev = none) :
    s.pollKey x = s := by
  simp only [State.pollKey, h]

/-- The engine always answers a next state. -/
theorem engine_next (s : State) : ∃ t, engine s = .next t := by
  unfold engine
  split
  · unfold runOne
    split
    · exact ⟨_, rfl⟩
    · exact exec_next _ s
  · exact ⟨_, rfl⟩
  · exact ⟨_, rfl⟩

/-- A Cycle is the engine's run between the refresh and the keeping of the sample (R82). -/
theorem cycle_eq (k : Keys) (b : Byte) (s t : State) (h : engine (s.sample k b) = .next t) :
    cycle k b s = .next t.endCycle := by
  rw [cycle, h]

/-- What a Cycle that answers a next state has done (R82, R183, R203, R208). -/
theorem cycle_cases (k : Keys) (b : Byte) (s t : State) (h : cycle k b s = .next t) :
    (s.mode = .running ∧ memSize ≤ s.pc.toNat + 1 ∧
      t = ((s.sample k b).raise .fetchOutOfRange (max s.pc.toNat memSize)).endCycle) ∨
    (s.mode = .running ∧ s.pc.toNat + 1 < memSize ∧ ∃ u,
      exec (decode (wordOfBytes (s.mem.get s.pc.toNat) (s.mem.get (s.pc.toNat + 1))))
        (s.sample k b) = .next u ∧ t = u.endCycle) ∨
    (∃ x, s.mode = .awaitingKey x ∧ t = ((s.sample k b).pollKey x).endCycle) ∨
    (∃ c p a, s.mode = .halted c p a ∧ t = (s.sample k b).endCycle) := by
  obtain ⟨u, hu⟩ := engine_next (s.sample k b)
  rw [cycle_eq k b s u hu] at h
  have ht : t = u.endCycle := by injection h with h; exact h.symm
  cases hm : s.mode with
  | running =>
    by_cases hp : s.pc.toNat + 1 < memSize
    · rw [engine_of_running (s.sample k b) hm hp] at hu
      exact .inr (.inl ⟨rfl, hp, u, hu, ht⟩)
    · rw [engine_of_fetchFault (s.sample k b) hm (by simpa using hp)] at hu
      injection hu with hu
      exact .inl ⟨rfl, by omega, by rw [ht, ← hu]; rfl⟩
  | awaitingKey x =>
    rw [engine_of_awaiting (s.sample k b) x hm] at hu
    injection hu with hu
    exact .inr (.inr (.inl ⟨x, rfl, by rw [ht, ← hu]⟩))
  | halted c p a =>
    rw [engine_of_halted (s.sample k b) c p a hm] at hu
    injection hu with hu
    exact .inr (.inr (.inr ⟨c, p, a, rfl, by rw [ht, ← hu]⟩))

/-! The host's moves. -/

theorem step_cycle (s : State) (k : Keys) (b : Byte) (rest : List HostMove)
    (h : s.script = .cycle k b :: rest) : step s = cycle k b { s with script := rest } := by
  rw [step, transition, h]

theorem step_tick (s : State) (rest : List HostMove) (h : s.script = .tick :: rest) :
    step s = .next (State.tick { s with script := rest }) := by
  rw [step, transition, h]

theorem step_reset (s : State) (image : Image) (config : Config) (rest : List HostMove)
    (h : s.script = .reset image config :: rest) :
    step s = .next { State.resetWith image config with
      script := rest, unscripted := s.unscripted } := by
  rw [step, transition, h]

theorem step_unscripted (s : State) (h : s.script = []) : step s = unscriptedCycle s := by
  rw [step, transition, h]

/-- Everything a step that answers a next state can be: one of the host's moves (R6). -/
theorem step_cases (s t : State) (h : step s = .next t) :
    (∃ k b rest, s.script = .cycle k b :: rest ∧ cycle k b { s with script := rest } = .next t) ∨
    (∃ rest, s.script = .tick :: rest ∧ t = State.tick { s with script := rest }) ∨
    (∃ image config rest, s.script = .reset image config :: rest ∧
      t = { State.resetWith image config with script := rest, unscripted := s.unscripted }) ∨
    (s.script = [] ∧ ∃ n k b,
      cycle k b { s.ticks n with unscripted := s.unscripted + 1 } = .next t) := by
  match hs : s.script with
  | [] => exact .inr (.inr (.inr ⟨rfl, _, _, _, (step_unscripted s hs).symm.trans h⟩))
  | .cycle k b :: rest => exact .inl ⟨k, b, rest, rfl, (step_cycle s k b rest hs).symm.trans h⟩
  | .tick :: rest =>
    rw [step_tick s rest hs] at h
    injection h with h
    exact .inr (.inl ⟨rest, rfl, h.symm⟩)
  | .reset image config :: rest =>
    rw [step_reset s image config rest hs] at h
    injection h with h
    exact .inr (.inr (.inl ⟨image, config, rest, rfl, h.symm⟩))

/-- Placing an instruction keeps the canonical form of memory. -/
theorem wf_loadNext (s : State) (op : Word) (h : s.mem.wf) : (s.loadNext op).mem.wf := by
  have hp : s.fetchAddress.toNat + 1 < memSize := by
    unfold State.fetchAddress
    split
    · assumption
    · decide
  exact Memory.wf_set _ _ _ (Memory.wf_set _ _ _ h (by omega)) hp

end Sys2Proof.Machine
end

