-- ==== Sys2Proof/Tests/Slice0.lean ====
section
/-! SUPPORT. The model's own tests. Expected results are those of spec/95_test_vectors.md (the vector's id
stands in each docstring) or of the worked example of the rule named; witnesses that the hypotheses of the
statements can be met stand at the end. -/

open Sys2Proof Sys2Proof.Machine

namespace Sys2Proof.Tests

/-! ## Well-formedness: an ill-formed term for each check is refused -/

theorem test_wellFormed_refuses_nop0 :
    (Instr.nop0 0x0E0).wellFormed = false ∧ (Instr.nop0 0x0EE).wellFormed = false ∧
    (Instr.nop0 0x0E1).wellFormed = true := by decide
theorem test_wellFormed_refuses_nop5 :
    (Instr.nop5 0x120).wellFormed = false ∧ (Instr.nop5 0x121).wellFormed = true := by decide
theorem test_wellFormed_refuses_nop8 :
    (Instr.nop8 0x127).wellFormed = false ∧ (Instr.nop8 0x12E).wellFormed = false ∧
    (Instr.nop8 0x128).wellFormed = true ∧ (Instr.nop8 0x12F).wellFormed = true := by decide
theorem test_wellFormed_refuses_nop9 :
    (Instr.nop9 0x120).wellFormed = false ∧ (Instr.nop9 0x12F).wellFormed = true := by decide
theorem test_wellFormed_refuses_nopE :
    (Instr.nopE 0x19E).wellFormed = false ∧ (Instr.nopE 0x1A1).wellFormed = false ∧
    (Instr.nopE 0x19F).wellFormed = true := by decide
theorem test_wellFormed_refuses_nopF :
    (Instr.nopF 0x10A).wellFormed = false ∧ (Instr.nopF 0x165).wellFormed = false ∧
    (Instr.nopF 0x175).wellFormed = true := by decide

/-! ## Decode: words written out from the patterns and fixed bits of R72 and R77 -/

/-- One word per family, bit by bit. -/
theorem test_decode_bits_families_0_to_7 :
    decode 0b0000000011100000#16 = .cls ∧
    decode 0b0000000011101110#16 = .ret ∧
    decode 0b0001001000110100#16 = .jp 0x234 ∧
    decode 0b0010111111111110#16 = .call 0xFFE ∧
    decode 0b0011101001111111#16 = .seVxNn 10 0x7F ∧
    decode 0b0100101110000000#16 = .sneVxNn 11 0x80 ∧
    decode 0b0101110011010000#16 = .seVxVy 12 13 ∧
    decode 0b0110111000000001#16 = .ldVxNn 14 0x01 ∧
    decode 0b0111000111111110#16 = .addVxNn 1 0xFE := by decide

theorem test_decode_bits_families_8_to_F :
    decode 0b1000101010110101#16 = .subVxVy 10 11 ∧
    decode 0b1001000100100000#16 = .sneVxVy 1 2 ∧
    decode 0b1010000000000001#16 = .ldINnn 0x001 ∧
    decode 0b1011001011110000#16 = .jpV0Nnn 0x2F0 ∧
    decode 0b1100010111110000#16 = .rndVxNn 5 0xF0 ∧
    decode 0b1101000100101111#16 = .drwVxVyN 1 2 15 ∧
    decode 0b1110111110011110#16 = .skpVx 15 ∧
    decode 0b1111001100110011#16 = .ldBVx 3 := by decide

/-- Family 8 (section 2.7: 0x8AB0 to 0x8AB7, 0x8ABE; X = A, Y = B). -/
theorem test_decode_family8 :
    decode 0x8AB0 = .ldVxVy 10 11 ∧ decode 0x8AB1 = .orVxVy 10 11 ∧ decode 0x8AB2 = .andVxVy 10 11 ∧
    decode 0x8AB3 = .xorVxVy 10 11 ∧ decode 0x8AB4 = .addVxVy 10 11 ∧
    decode 0x8AB5 = .subVxVy 10 11 ∧ decode 0x8AB6 = .shrVxVy 10 11 ∧
    decode 0x8AB7 = .subnVxVy 10 11 ∧ decode 0x8ABE = .shlVxVy 10 11 := by decide

/-- Families E and F (section 2.7). -/
theorem test_decode_families_E_F :
    decode 0xE09E = .skpVx 0 ∧ decode 0xE0A1 = .sknpVx 0 ∧ decode 0xF007 = .ldVxDt 0 ∧
    decode 0xF00A = .ldVxK 0 ∧ decode 0xF015 = .ldDtVx 0 ∧ decode 0xF018 = .ldStVx 0 ∧
    decode 0xF01E = .addIVx 0 ∧ decode 0xF029 = .ldFVx 0 ∧ decode 0xF033 = .ldBVx 0 ∧
    decode 0xF055 = .ldMemVx 0 ∧ decode 0xF065 = .ldVxMem 0 := by decide

/-- The fall-back words (section 2.7): near misses of every family's discriminants. -/
theorem test_decode_nops :
    decode 0x0000 = .nop0 0x000 ∧ decode 0x00E1 = .nop0 0x0E1 ∧ decode 0x01E0 = .nop0 0x1E0 ∧
    decode 0x5CDF = .nop5 0xCDF ∧ decode 0x8AB8 = .nop8 0xAB8 ∧ decode 0x8ABD = .nop8 0xABD ∧
    decode 0x8ABF = .nop8 0xABF ∧ decode 0x9121 = .nop9 0x121 ∧ decode 0xE0A0 = .nopE 0x0A0 ∧
    decode 0xE19D = .nopE 0x19D ∧ decode 0xF008 = .nopF 0x008 ∧ decode 0xF075 = .nopF 0x075 := by
  decide

/-- Bytes are taken high byte first and the rest is kept (R52); one byte is no instruction (R70). -/
theorem test_decodeBytes :
    decodeBytes [0x12, 0x34, 0x56] = .ok (.jp 0x234, [0x56]) ∧
    decodeBytes [0x12] = .error .truncated ∧ decodeBytes [] = .error .truncated ∧
    decodeTableWord 16 0x6005 = some (.ldVxNn 0 5) := ⟨rfl, rfl, rfl, rfl⟩

/-- The assembled bytes of programs P1 and P2 of section 3. -/
theorem test_encode_programs :
    encodeBytes (.addVxVy 0 1) = [0x80, 0x14] ∧ encodeBytes (.seVxNn 1 0) = [0x31, 0x00] ∧
    encodeBytes (.jp 0x204) = [0x12, 0x04] ∧ encodeBytes (.ldVxMem 2) = [0xF2, 0x65] ∧
    encodeBytes (.drwVxVyN 0 1 2) = [0xD0, 0x12] := by decide

/-! ## One step each -/

/-- The outcome is a next state of which p holds. -/
def nextWith (o : Host.Outcome State Fault Refusal) (p : State → Bool) : Bool :=
  match o with
  | .next t => p t
  | .fault _ => false
  | .refused _ => false

/-- Run word w as the next instruction of s and ask p of the state after. -/
def runs (s : State) (w : Nat) (p : State → Bool) : Bool := nextWith (step (s.withFetchWord 16 w)) p

/-- The state after reset with the given registers. -/
def regs (l : List (Reg × Byte)) : State := l.foldl (fun s p => s.setV p.1 p.2) State.reset

/-- The state after reset with the given bytes from 0x300 on and I = 0x300. -/
def atI (s : State) (bytes : List Byte) : State := { s with i := 0x300, mem := s.mem.setBytes 0x300 bytes }

/-- The state with only the listed keys pressed. -/
def press (ks : List (Fin 16)) : Keys := Vector.ofFn (fun k => ks.contains k)

def halts (t : State) (c : FaultCause) (pc : Word) (addr : Nat) : Bool := t.mode == .halted c pc addr

/-- The lit columns among the first and the last four of a display row. -/
def edgesOf (t : State) (r : Fin 32) : List (Fin 64) :=
  [0, 1, 2, 3, 4, 60, 61, 62, 63].filter (fun c => t.disp.cell r c)

/-! Control transfer (section 2.1) -/

/-- T1 -/
theorem test_ret : runs { State.reset with pc := 0x300, sp := 2, stack := (State.reset.stack.set 0 0x202).set 1 0x456 }
    0x00EE (fun t => t.pc == 0x456 && t.sp == 1 && t.stack[1] == 0x456) = true := by decide
/-- T2 -/
theorem test_ret_empty : runs State.reset 0x00EE
    (fun t => halts t .stackUnderflow 0x200 0 && t.pc == 0x200 && t.sp == 0) = true := by decide
/-- T3; the jump below 0x200 of R102 -/
theorem test_jp : runs State.reset 0x1ABC (fun t => t.pc == 0xABC) = true ∧
    runs State.reset 0x1001 (fun t => t.pc == 0x001 && t.mode == .running) = true := by decide
/-- T6 -/
theorem test_call : runs { State.reset with pc := 0x250, sp := 3 } 0x2ABC
    (fun t => t.pc == 0xABC && t.sp == 4 && t.stack[3] == 0x252 && t.stack[2] == 0) = true := by decide
/-- T7 -/
theorem test_call_full : runs { State.reset with sp := 16, stack := Vector.replicate 16 0x202 } 0x2ABC
    (fun t => halts t .stackOverflow 0x200 0 && t.pc == 0x200 && t.sp == 16 &&
      t.stack == Vector.replicate 16 0x202) = true := by decide
/-- T8, T9 -/
theorem test_seVxNn : runs (regs [(10, 0x42)]) 0x3A42 (fun t => t.pc == 0x204) = true ∧
    runs (regs [(10, 0x43)]) 0x3A42 (fun t => t.pc == 0x202) = true := by decide
/-- T10, T11 -/
theorem test_sneVxNn : runs (regs [(10, 0x42)]) 0x4A42 (fun t => t.pc == 0x202) = true ∧
    runs (regs [(10, 0x43)]) 0x4A42 (fun t => t.pc == 0x204) = true := by decide
/-- T12, T13 -/
theorem test_seVxVy : runs (regs [(1, 7), (2, 7)]) 0x5120 (fun t => t.pc == 0x204) = true ∧
    runs (regs [(1, 7), (2, 8)]) 0x5120 (fun t => t.pc == 0x202) = true := by decide
/-- T15, T16 -/
theorem test_sneVxVy : runs (regs [(1, 7), (2, 7)]) 0x9120 (fun t => t.pc == 0x202) = true ∧
    runs (regs [(1, 7), (2, 8)]) 0x9120 (fun t => t.pc == 0x204) = true := by decide
/-- T17, T18 -/
theorem test_jpV0Nnn : runs (regs [(0, 0x10), (3, 0x20)]) 0xB300 (fun t => t.pc == 0x310) = true ∧
    runs { regs [(0, 0x10), (3, 0x20)] with config := { configAtReset with jumpUsesVx := true } } 0xB300
      (fun t => t.pc == 0x320) = true := by decide
/-- T19: the sum is not cut to 12 bits -/
theorem test_jpV0Nnn_top : runs (regs [(0, 0xFF)]) 0xBFFF
    (fun t => t.pc == 0x10FE && t.mode == .running) = true := by decide
/-- T21, T22: the last fetchable word -/
theorem test_last_word : runs { State.reset with pc := 0xFFE } 0x3000 (fun t => t.pc == 0x1002) = true ∧
    runs { State.reset with pc := 0xFFE } 0x0000 (fun t => t.pc == 0x1000 && t.mode == .running) = true := by
  decide
/-- T25, T28, T30 -/
theorem test_nop0_nop5_nop8 : runs State.reset 0x0123 (fun t => t.pc == 0x202 && t.sp == 0) = true ∧
    runs (regs [(1, 7), (2, 7)]) 0x5121 (fun t => t.pc == 0x202) = true ∧
    runs (regs [(1, 1), (2, 2)]) 0x8128 (fun t => t.pc == 0x202 && t.getV 1 == 1 && t.getV 15 == 0) = true := by
  decide
/-- T29, T32, T33 -/
theorem test_nop9_nopE_nopF : runs (regs [(10, 1), (11, 0)]) 0x9AB1 (fun t => t.pc == 0x202) = true ∧
    runs State.reset 0xE19F (fun t => t.pc == 0x202) = true ∧
    runs State.reset 0xF100 (fun t => t.pc == 0x202 && t.i == 0) = true := by decide

/-! Loads, arithmetic, random (section 2.2) -/

/-- The values of VX and VF after one word. -/
def vxVf (s : State) (w : Nat) (x : Reg) (vx vf : Byte) : Bool :=
  runs s w (fun t => t.getV x == vx && t.getV 15 == vf && t.pc == 0x202)

/-- A1, A2 -/
theorem test_ldVxNn : vxVf State.reset 0x6AFF 10 0xFF 0 = true ∧ vxVf State.reset 0x6F12 15 0x12 0x12 = true := by
  decide
/-- A3, A4 -/
theorem test_addVxNn : vxVf (regs [(10, 0xFF), (15, 1)]) 0x7A01 10 0 1 = true ∧
    vxVf (regs [(15, 0xFF)]) 0x7F01 15 0 0 = true := by decide
/-- A5, A6 -/
theorem test_ldVxVy_orVxVy : vxVf (regs [(1, 1), (2, 0x99), (15, 7)]) 0x8120 1 0x99 7 = true ∧
    vxVf (regs [(1, 0x0F), (2, 0xF0), (15, 7)]) 0x8121 1 0xFF 7 = true := by decide
/-- A7, A8 -/
theorem test_andVxVy_xorVxVy : vxVf (regs [(1, 0x3C), (2, 0x0F), (15, 7)]) 0x8122 1 0x0C 7 = true ∧
    vxVf (regs [(1, 0xFF), (2, 0x0F), (15, 7)]) 0x8123 1 0xF0 7 = true := by decide
/-- A10, A11 -/
theorem test_addVxVy : vxVf (regs [(1, 0x80), (2, 0x7F), (15, 1)]) 0x8124 1 0xFF 0 = true ∧
    vxVf (regs [(1, 0x80), (2, 0x80)]) 0x8124 1 0 1 = true := by decide
/-- A14, A16: the flag is written last, both sources are read first -/
theorem test_addVxVy_flag_order : vxVf (regs [(15, 0xFF), (1, 2)]) 0x8F14 15 1 1 = true ∧
    vxVf (regs [(1, 0xF0), (15, 0x20)]) 0x81F4 1 0x10 1 = true := by decide
/-- A18, A19 -/
theorem test_subVxVy : vxVf (regs [(1, 0x10), (2, 0x10)]) 0x8125 1 0 1 = true ∧
    vxVf (regs [(1, 1), (2, 0x10)]) 0x8125 1 0xF1 0 = true := by decide
/-- A22, A24 -/
theorem test_subnVxVy : vxVf (regs [(1, 1), (2, 0x10)]) 0x8127 1 0x0F 1 = true ∧
    vxVf (regs [(1, 0x10), (2, 1)]) 0x8127 1 0xF1 0 = true := by decide

def shiftVY (s : State) : State := { s with config := { s.config with shiftMode := .shiftVY } }

/-- A25, A26 -/
theorem test_shrVxVy : vxVf (regs [(1, 5), (2, 0x82)]) 0x8126 1 2 1 = true ∧
    vxVf (shiftVY (regs [(1, 5), (2, 0x82)])) 0x8126 1 0x41 0 = true := by decide
/-- A27, A28 -/
theorem test_shlVxVy : vxVf (regs [(1, 5), (2, 0x82)]) 0x812E 1 0x0A 0 = true ∧
    vxVf (shiftVY (regs [(1, 5), (2, 0x82)])) 0x812E 1 4 1 = true := by decide
/-- A34, A36 -/
theorem test_rndVxNn : vxVf { State.reset with rnd := 0xA7 } 0xC10F 1 7 0 = true ∧
    vxVf { State.reset with rnd := 0x3C } 0xCFFF 15 0x3C 0x3C = true := by decide

/-! Index and memory (section 2.3) -/

/-- I1 -/
theorem test_ldINnn : runs State.reset 0xAFFF (fun t => t.i == 0xFFF && t.pc == 0x202) = true := by decide
/-- I2, I3 -/
theorem test_addIVx : runs { regs [(1, 0x20), (15, 9)] with i := 0xFF0 } 0xF11E
      (fun t => t.i == 0x1010 && t.getV 15 == 9 && t.mode == .running) = true ∧
    runs { regs [(1, 2)] with i := 0xFFFF } 0xF11E (fun t => t.i == 1) = true := by decide
/-- I4, I5 -/
theorem test_ldFVx : runs (regs [(1, 0x0A)]) 0xF129 (fun t => t.i == 0x32) = true ∧
    runs { regs [(1, 0xFA)] with config := { configAtReset with fontBase := 0x50 } } 0xF129
      (fun t => t.i == 0x82) = true := by decide
/-- I7: three bytes over 9, 9, 9, the two zeros leaving no entry -/
theorem test_ldBVx : runs (atI (regs [(1, 7)]) [9, 9, 9]) 0xF133
    (fun t => t.mem.getBytes 0x300 3 == [0, 0, 7] && t.i == 0x300 && decide t.mem.wf) = true := by decide
/-- I9: nothing is stored -/
theorem test_ldBVx_fault : runs { regs [(1, 0x80)] with i := 0xFFE } 0xF133
    (fun t => halts t .dataOutOfRange 0x200 0x1000 && t.mem.getBytes 0xFFE 2 == [0, 0] && t.pc == 0x200) =
      true := by decide
/-- I11, I12 -/
theorem test_ldMemVx : runs (atI (regs [(0, 0xAA), (1, 0xBB), (2, 0xCC), (3, 0xDD)]) []) 0xF255
      (fun t => t.mem.getBytes 0x300 4 == [0xAA, 0xBB, 0xCC, 0] && t.i == 0x300) = true ∧
    runs { atI (regs [(0, 0xAA)]) [] with config := { configAtReset with loadStoreIncrementsI := true } } 0xF255
      (fun t => t.i == 0x303) = true := by decide
/-- I14, I20 -/
theorem test_ldMemVx_fault : runs { regs [(0, 0x5A), (1, 0x5B)] with i := 0xFFF } 0xF155
      (fun t => halts t .dataOutOfRange 0x200 0x1000 && t.mem.get 0xFFF == 0) = true ∧
    runs { State.reset with i := 0xFFFF } 0xF055
      (fun t => halts t .dataOutOfRange 0x200 0xFFFF && t.i == 0xFFFF) = true := by decide
/-- I16, I17 -/
theorem test_ldVxMem : runs (atI (regs [(3, 0x77)]) [1, 2, 3, 4]) 0xF265
      (fun t => t.v.toList.take 4 == [1, 2, 3, 0x77] && t.i == 0x300) = true ∧
    runs { atI State.reset [1, 2, 3] with config := { configAtReset with loadStoreIncrementsI := true } } 0xF265
      (fun t => t.i == 0x303) = true := by decide
/-- I19 -/
theorem test_ldVxMem_fault : runs { regs [(0, 0x11)] with i := 0xFF1 } 0xFF65
    (fun t => halts t .dataOutOfRange 0x200 0x1000 && t.getV 0 == 0x11) = true := by decide

/-! Display (section 2.4) -/

/-- D15 -/
theorem test_cls : runs { State.reset with disp := (Display.blank.setCell 0 0 true).setCell 31 63 true } 0x00E0
    (fun t => edgesOf t 0 == [] && edgesOf t 31 == [] && t.events == [.fullClear] && t.pc == 0x202) =
      true := by decide +kernel
/-- D4: a partial collision -/
theorem test_drwVxVyN_collision :
    runs { atI State.reset [0xF0] with disp := (Display.blank.setCell 0 3 true).setCell 0 4 true } 0xD011
      (fun t => edgesOf t 0 == [0, 1, 2, 4] && t.getV 15 == 1 &&
        t.events == [.pixelChanged 0 0 true, .pixelChanged 0 1 true, .pixelChanged 0 2 true,
          .pixelChanged 0 3 false]) = true := by decide +kernel
/-- D10w, D10c -/
theorem test_drwVxVyN_edges :
    runs { atI (regs [(1, 0x3E)]) [0xF0] with disp := Display.blank.setCell 0 0 true } 0xD121
      (fun t => edgesOf t 0 == [1, 62, 63] && t.getV 15 == 1 &&
        t.events == [.pixelChanged 0 62 true, .pixelChanged 0 63 true, .pixelChanged 0 0 false,
          .pixelChanged 0 1 true]) = true ∧
    runs { atI (regs [(1, 0x3E)]) [0xF0] with
        disp := Display.blank.setCell 0 0 true, config := { configAtReset with edgeMode := .clip } } 0xD121
      (fun t => edgesOf t 0 == [0, 62, 63] && t.getV 15 == 0 &&
        t.events == [.pixelChanged 0 62 true, .pixelChanged 0 63 true]) = true := by decide +kernel

/-! Keys and timers (section 2.5) -/

/-- K2, K3 -/
theorem test_skpVx : runs { regs [(1, 0x0A)] with keys := press [11] } 0xE19E (fun t => t.pc == 0x202) = true ∧
    runs { regs [(1, 0xFA)] with keys := press [10] } 0xE19E (fun t => t.pc == 0x204) = true := by decide
/-- K4, K5 -/
theorem test_sknpVx : runs { regs [(1, 0x0A)] with keys := press [10] } 0xE1A1 (fun t => t.pc == 0x202) = true ∧
    runs (regs [(1, 0x0A)]) 0xE1A1 (fun t => t.pc == 0x204) = true := by decide
/-- K6, K7 -/
theorem test_ldVxDt_ldDtVx : runs { State.reset with dt := 0x2A } 0xF107 (fun t => t.getV 1 == 0x2A && t.dt == 0x2A) = true ∧
    runs { regs [(1, 0x3C)] with dt := 5 } 0xF115 (fun t => t.dt == 0x3C && t.st == 0) = true := by decide
/-- K8 -/
theorem test_ldStVx : runs { regs [(1, 2)] with st := 9, dt := 4 } 0xF118 (fun t => t.st == 2 && t.dt == 4) = true := by
  decide
/-- K9 -/
theorem test_ldVxK : runs { regs [(1, 0x44)] with keys := press [3] } 0xF10A
    (fun t => t.mode == .awaitingKey 1 && t.pc == 0x200 && t.getV 1 == 0x44 && t.kprev == press [3]) = true := by
  decide

/-- A state that waits for a key into V1 at 0x200, and the Cycle that comes. -/
def waiting (before now : List (Fin 16)) : State :=
  { State.reset with mode := .awaitingKey 1, kprev := press before, script := [.cycle (press now) 0] }

/-- K10, K11 -/
theorem test_keyWait_goes_on : nextWith (step (waiting [3] [3])) (fun t => t.mode == .awaitingKey 1 && t.pc == 0x200) = true ∧
    nextWith (step (waiting [3] [])) (fun t => t.mode == .awaitingKey 1 && t.kprev == press []) = true := by
  decide
/-- K12, K13 -/
theorem test_keyWait_ends : nextWith (step (waiting [] [3]))
      (fun t => t.mode == .running && t.pc == 0x202 && t.getV 1 == 3 && t.kprev == press [3]) = true ∧
    nextWith (step (waiting [3] [3, 9, 12])) (fun t => t.getV 1 == 9) = true := by decide

/-! Faults, Ticks, Reset (section 2.6) and the fetch -/

/-- T4, T19, T20: the fetch faults after the jump -/
def fetchAt (pc : Word) : State := { State.reset with pc := pc, script := [.cycle State.reset.keys 0] }
theorem test_fetch_fault : nextWith (step (fetchAt 0xFFF)) (fun t => halts t .fetchOutOfRange 0xFFF 0x1000 && t.pc == 0xFFF) = true ∧
    nextWith (step (fetchAt 0x10FE)) (fun t => halts t .fetchOutOfRange 0x10FE 0x10FE) = true ∧
    nextWith (step (fetchAt 0x1000)) (fun t => halts t .fetchOutOfRange 0x1000 0x1000) = true := by decide
/-- F1 -/
theorem test_halted_cycle : nextWith (step { State.reset with
      mode := .halted .dataOutOfRange 0x200 0x1000, script := [.cycle (press [5]) 0] })
    (fun t => halts t .dataOutOfRange 0x200 0x1000 && t.kprev == press [5] && t.keys == press [5] &&
      t.pc == 0x200) = true := by decide
/-- K15, F4 -/
theorem test_tick : nextWith (step { waiting [] [] with dt := 3, script := [.tick] })
      (fun t => t.dt == 2 && t.st == 0 && t.mode == .awaitingKey 1) = true ∧
    nextWith (step { State.reset with dt := 0xFF, st := 1, script := [.tick] })
      (fun t => t.dt == 0xFE && t.st == 0) = true := by decide
/-- T5: an odd address is fetched like any other, high byte first -/
theorem test_fetch_odd : nextWith (step { fetchAt 0x201 with mem := [(0x201, 0x6A), (0x202, 0xFF)] })
    (fun t => t.getV 10 == 0xFF && t.pc == 0x203) = true := by decide
/-- The fault codes of R200. -/
theorem test_fault_codes : [FaultCause.stackOverflow, .stackUnderflow, .fetchOutOfRange, .dataOutOfRange].map
    FaultCause.code = [1, 2, 3, 4] := by decide

/-! ## Witnesses: the hypotheses of each statement that has some can be met together -/

/-- A state in mode `Running` is not halted. -/
theorem running_not_halted {s : State} (h : s.mode = .running) : ¬s.isHalted :=
  fun ⟨_, _, _, h'⟩ => by simp [h] at h'

/-- A run in mode `Running` at the last fetchable address; the bytes 0x1F, 0xFE at 0xFFE are the jump to
itself of R252. -/
def lastAddress : State :=
  { State.reset with pc := 0xFFE, mem := [(0xFFE, 0x1F), (0xFFF, 0xFE)], script := [.cycle (press [0]) 7] }

theorem witness_DecodeInvertsEncode : (Instr.nop0 0x0EF).wellFormed = true ∧
    (Instr.ldVxMem 15).wellFormed = true := by decide
theorem witness_DecodeFollowsOpcodeMap :
    (decode 0x8FFE).maskMatch? = some (0xF00F, 0x800E) ∧
    (0xFFFF, 0x00EE) ∈ opcodeMap ∧ (0x00EE#16) &&& 0xFFFF = 0x00EE := by decide
theorem witness_StepRunsTheDecodedInstruction :
    lastAddress.mode = .running ∧ lastAddress.pc.toNat + 1 < 0x1000 ∧
    lastAddress.script = .cycle (press [0]) 7 :: [] ∧
    decodeBytes [lastAddress.mem.get lastAddress.pc.toNat, lastAddress.mem.get (lastAddress.pc.toNat + 1)] =
      .ok (.jp 0xFFE, []) ∧ (Instr.jp 0xFFE).wellFormed = true := ⟨rfl, by decide, rfl, rfl, rfl⟩
theorem witness_StepRunsTheDecodedInstructionUnscripted :
    State.reset.mode = .running ∧ State.reset.pc.toNat + 1 < 0x1000 ∧ State.reset.script = [] ∧
    decodeBytes [State.reset.mem.get 0x200, State.reset.mem.get 0x201] = .ok (.nop0 0, []) ∧
    (Instr.nop0 0).wellFormed = true := ⟨rfl, by decide, rfl, rfl, rfl⟩
/-- An empty script in each MODE, a PC that cannot be fetched included. -/
theorem witness_UnscriptedStepIsTicksThenACycle (m : Mode) :
    { State.reset with mode := m, pc := 0xFFF }.script = [] := rfl
/-- PC at 0xFFF, at 0x1000 and past it. -/
theorem witness_FetchOutOfRangeHalts : ∀ pc ∈ [0xFFF#16, 0x1000#16, 0x1001#16],
    (fetchAt pc).mode = .running ∧ 0xFFF ≤ (fetchAt pc).pc.toNat ∧
    (fetchAt pc).script = .cycle State.reset.keys 0 :: [] := by
  simp [fetchAt]; decide
/-- Key 15 as the only new key, keys 0 and 15 new at once, and no new key. -/
theorem witness_KeyWaitEndsOnTheLowestNewKey :
    (waiting [3] [3, 15]).mode = .awaitingKey 1 ∧
    (waiting [3] [3, 15]).script = .cycle (press [3, 15]) 0 :: [] ∧
    ((press [3, 15])[(15 : Fin 16)] = true ∧ (press [3])[(15 : Fin 16)] = false ∧
      ∀ j : Fin 16, j < 15 → ¬((press [3, 15])[j] = true ∧ (press [3])[j] = false)) ∧
    ((press [0, 15])[(0 : Fin 16)] = true ∧ (press [])[(0 : Fin 16)] = false) ∧
    ∀ k : Fin 16, ¬((press [3])[k] = true ∧ (press [3, 15])[k] = false) :=
  ⟨rfl, rfl, by decide, by decide, by decide⟩
theorem witness_HaltedIsAbsorbing (m : HostMove) :
    { State.reset with mode := .halted .fetchOutOfRange 0x1000 0x1000, script := [m] }.mode =
      .halted .fetchOutOfRange 0x1000 0x1000 ∧
    { State.reset with mode := .halted .fetchOutOfRange 0x1000 0x1000, script := [m] }.script = m :: [] :=
  ⟨rfl, rfl⟩
/-- DT at 0 and ST at 255. -/
theorem witness_TickDecrementsBothTimers :
    { State.reset with dt := 0, st := 255, script := [.tick] }.script = .tick :: [] := rfl
theorem witness_ResetRestoresEveryItem (image : Image) (config : Config) :
    { State.reset with mode := .halted .stackOverflow 0 0, script := [.reset image config] }.script =
      .reset image config :: [] := rfl
theorem witness_EndedRunStaysEnded :
    lastAddress.ended ∧ lastAddress.script = .cycle (press [0]) 7 :: [] := ⟨⟨rfl, rfl⟩, rfl⟩
/-- A waiting state at the last fetchable address that a Tick leaves. -/
theorem witness_StepKeepsInvariant : ∃ t,
    { lastAddress with mode := .awaitingKey 15, script := [.tick] }.Inv ∧
    step { lastAddress with mode := .awaitingKey 15, script := [.tick] } = .next t :=
  ⟨_, ⟨by decide, by decide, by decide, by unfold State.modeOk; decide, rfl⟩, rfl⟩
/-- A full stack, an empty stack, a store that starts at 0xFFE. -/
theorem witness_FaultsArePrecise :
    (∃ t, exec (.call 0) { State.reset with sp := 16 } = .next t ∧ t.isHalted) ∧
    (∃ t, exec .ret State.reset = .next t ∧ t.isHalted) ∧
    (∃ t, exec (.ldBVx 0) { State.reset with i := 0xFFE } = .next t ∧ t.isHalted) ∧
    ¬State.reset.isHalted :=
  ⟨⟨_, rfl, _, _, _, rfl⟩, ⟨_, rfl, _, _, _, rfl⟩, ⟨_, rfl, _, _, _, rfl⟩, running_not_halted rfl⟩
theorem witness_OnlyDrawAndClearTouchTheDisplay :
    Instr.ldVxMem 15 ≠ .cls ∧ ∀ x y n, Instr.ldVxMem 15 ≠ .drwVxVyN x y n := by simp
/-- For the two stores: the last range that fits, the first that does not, on two canonical memories. -/
theorem witness_OnlyFourInstructionsTouchMemory :
    (∀ x, Instr.call 0 ≠ .ldBVx x) ∧ (∀ x, Instr.call 0 ≠ .ldMemVx x) ∧
    (∀ x y n, Instr.call 0 ≠ .drwVxVyN x y n) ∧ (∀ x, Instr.call 0 ≠ .ldVxMem x) ∧
    (∃ t, exec (.call 0) State.reset = .next t) ∧
    { lastAddress with i := 0xFFD }.mem.wf ∧ Memory.wf [(0xFFD, 9)] ∧
    { lastAddress with i := 0xFFD }.i.toNat + 2 < 0x1000 ∧
    0x1000 ≤ { lastAddress with i := 0xFF1 }.i.toNat + (15 : Reg).val ∧
    (0xFFD ≤ 0xFFF ∧ 0xFFF ≤ { lastAddress with i := 0xFFD }.i.toNat + 2) ∧
    (0xFFC < { lastAddress with i := 0xFFD }.i.toNat) :=
  ⟨by simp, by simp, by simp, by simp, ⟨_, rfl⟩, by decide, by decide, by decide, by decide, by decide, by decide⟩
theorem witness_NoInstructionWritesInputsOrConfig : ∃ t, exec .cls State.reset = .next t := ⟨_, rfl⟩
/-- Each side of the ST clause, and a MODE clause of each kind. -/
theorem witness_SoundTimerKprevModeAndEventsAreUnread :
    (∀ x, Instr.ldDtVx 0 ≠ .ldStVx x) ∧ (∃ x, Instr.ldStVx 15 = .ldStVx x) ∧
    (∀ m : Mode, exec (.ldVxK 3) { State.reset with mode := m } =
      .next { State.reset with mode := .awaitingKey 3 }) ∧
    ∀ m : Mode, exec (.jp 0) { State.reset with mode := m } = .next { State.reset with mode := m, pc := 0 } :=
  ⟨by simp, ⟨_, rfl⟩, fun _ => rfl, fun _ => rfl⟩
theorem witness_StackTimerKeysAndRandomHaveNamedReaders :
    (∀ nnn, Instr.cls ≠ .call nnn) ∧ Instr.cls ≠ .ret ∧ (∀ x, Instr.cls ≠ .ldVxDt x) ∧
    (∀ x, Instr.cls ≠ .ldDtVx x) ∧ (∀ x, Instr.cls ≠ .skpVx x) ∧ (∀ x, Instr.cls ≠ .sknpVx x) ∧
    (∀ x nn, Instr.cls ≠ .rndVxNn x nn) ∧ ∃ x, Instr.ldDtVx 15 = .ldDtVx x := by simp
theorem witness_RegistersNotNamedKeepTheirValue :
    (∃ t, exec (.addVxVy 0 1) State.reset = .next t) ∧ writesV (.addVxVy 0 1) 1 = false ∧
    writesV (.ldVxMem 14) 15 = false := ⟨⟨_, rfl⟩, by decide, by decide⟩
theorem witness_FlagWritersLeaveZeroOrOne :
    setsFlag (.addVxVy 15 15) = true ∧ setsFlag (.drwVxVyN 0 0 15) = true ∧ ¬State.reset.isHalted :=
  ⟨rfl, rfl, running_not_halted rfl⟩
/-- A fault, an instruction outside the list of transfers, a skip. -/
theorem witness_ProgramCounterAdvancesByTwo :
    ¬State.reset.isHalted ∧
    (∃ t, exec .ret State.reset = .next t ∧ t.isHalted) ∧
    (∃ t, exec (.nop0 0) State.reset = .next t ∧ ¬t.isHalted) ∧ transfersControl (.nop0 0) = false ∧
    (∃ t, exec (.skpVx 15) State.reset = .next t) :=
  ⟨running_not_halted rfl, ⟨_, rfl, _, _, _, rfl⟩, ⟨_, rfl, running_not_halted rfl⟩, rfl,
    ⟨_, rfl⟩⟩
theorem witness_MemoryReadReturnsLastWrite :
    Memory.wf [(0, 1), (0xFFF, 2)] ∧ (0 : Nat) < 0x1000 ∧ 0xFFF < 0x1000 := by decide
theorem witness_CanonicalMemoryIsExtensional :
    Memory.wf [(0, 1), (0xFFF, 2)] ∧
    ∀ a, Memory.get [(0, 1), (0xFFF, 2)] a = Memory.get [(0, 1), (0xFFF, 2)] a := ⟨by decide, fun _ => rfl⟩
/-- The first and the last undefined word of family 8's row of R76. -/
theorem witness_UndefinedWordsOnlyAdvance :
    (∀ m ∈ opcodeMap, (0x8008#16) &&& m.1 ≠ m.2) ∧ (∀ m ∈ opcodeMap, (0x8FFF#16) &&& m.1 ≠ m.2) := by
  simp [opcodeMap]
/-- Empty, one entry, sixteen entries. -/
theorem witness_ReturnPopsOrUnderflows :
    State.reset.sp = 0 ∧ { State.reset with sp := 1 }.sp = (0 : Fin 16).succ ∧
    { State.reset with sp := 16 }.sp = (15 : Fin 16).succ := ⟨rfl, rfl, rfl⟩
/-- Empty and fifteen entries. -/
theorem witness_CallPushesTheReturnAddress :
    State.reset.sp = (0 : Fin 16).castSucc ∧ { State.reset with sp := 15 }.sp = (15 : Fin 16).castSucc :=
  ⟨rfl, rfl⟩
theorem witness_CallOverflowsExactlyWhenFull :
    { State.reset with sp := 16 }.sp = 16 ∧ { State.reset with sp := 15 }.sp ≠ 16 := by decide
theorem witness_CallThenReturnRestores :
    { State.reset with sp := 15 }.sp = (15 : Fin 16).castSucc := rfl
theorem witness_SkipsCompareRegisters :
    (regs [(15, 7)]).v[(15 : Reg)] = 7 ∧ (regs [(15, 7)]).v[(15 : Reg)] ≠ 8 ∧
    (regs [(15, 7)]).v[(15 : Reg)] = (regs [(15, 7)]).v[(15 : Reg)] ∧
    (regs [(15, 7)]).v[(15 : Reg)] ≠ (regs [(15, 7)]).v[(0 : Reg)] := by decide
theorem witness_JumpWithOffsetAddsARegister :
    State.reset.config.jumpUsesVx = false ∧
    { configAtReset with jumpUsesVx := true }.jumpUsesVx = true ∧
    (15 : Reg).val = (0xFFF#12).toNat / 256 := by decide
theorem witness_AddSetsCarry : (14 : Reg) ≠ 15 ∧ (13 : Reg) ≠ 14 ∧ (13 : Reg) ≠ 15 := by decide
theorem witness_SubtractSetsNoBorrow : (0 : Reg) ≠ 15 ∧ (1 : Reg) ≠ 0 ∧ (1 : Reg) ≠ 15 := by decide
/-- Both settings; each makes the other hypothesis hold of nothing. -/
theorem witness_ShiftsFollowTheShiftMode :
    ((shiftVY (regs [(2, 0x82)])).config.shiftMode = .shiftVY ∧
      (0x82 : Byte) = (shiftVY (regs [(2, 0x82)])).v[(2 : Reg)] ∧
      (shiftVY (regs [(2, 0x82)])).config.shiftMode ≠ .shiftVX) ∧
    ((regs [(1, 5)]).config.shiftMode = .shiftVX ∧ (5 : Byte) = (regs [(1, 5)]).v[(1 : Reg)] ∧
      (regs [(1, 5)]).config.shiftMode ≠ .shiftVY) := by decide
/-- I at the last address that is in range and at the first that is not. -/
theorem witness_DecimalDigitsAreStored :
    { lastAddress with i := 0xFFD }.mem.wf ∧ { lastAddress with i := 0xFFD }.i.toNat + 2 < 0x1000 ∧
    0x1000 ≤ { lastAddress with i := 0xFFE }.i.toNat + 2 := by decide
theorem witness_BlockStoreWritesLowRegisters :
    { lastAddress with i := 0xFF0 }.mem.wf ∧
    { lastAddress with i := 0xFF0 }.i.toNat + (15 : Reg).val < 0x1000 ∧
    0x1000 ≤ { lastAddress with i := 0xFF1 }.i.toNat + (15 : Reg).val ∧
    lastAddress.config.loadStoreIncrementsI = false ∧
    { configAtReset with loadStoreIncrementsI := true }.loadStoreIncrementsI = true := by decide
theorem witness_BlockLoadReadsLowRegisters :
    { lastAddress with i := 0xFFF }.i.toNat + (0 : Reg).val < 0x1000 ∧
    0x1000 ≤ { lastAddress with i := 0x1000 }.i.toNat + (0 : Reg).val ∧ (0 : Reg) ≤ 0 ∧ (0 : Reg) < 1 ∧
    lastAddress.config.loadStoreIncrementsI = false ∧
    { configAtReset with loadStoreIncrementsI := true }.loadStoreIncrementsI = true := by decide
/-- Each disjunct at its boundary: the last I in range and the first that is not; N = 0 past the end. -/
theorem witness_DataOutOfRangeExactlyPastTheEnd :
    ¬State.reset.isHalted ∧
    (1 ≤ (15#4).toNat ∧ 0x1000 ≤ (0xFF2#16).toNat + (15#4).toNat - 1) ∧
    (0xFF1#16).toNat + (15#4).toNat - 1 < 0x1000 ∧ (0#4).toNat = 0 ∧
    0x1000 ≤ (0xFFE#16).toNat + 2 ∧ (0xFFD#16).toNat + 2 < 0x1000 ∧
    0x1000 ≤ (0xFF1#16).toNat + (15 : Reg).val ∧ (0xFF0#16).toNat + (15 : Reg).val < 0x1000 :=
  ⟨running_not_halted rfl, by decide⟩
/-- N = 0 with I past the end, and N = 15 with the last byte at 0xFFF. -/
theorem witness_DrawTogglesTheSpriteCells :
    ((0#4) = 0 ∨ { State.reset with i := 0xFFFF }.i.toNat + (0#4).toNat ≤ 0x1000) ∧
    ((15#4) = 0 ∨ { State.reset with i := 0xFF1 }.i.toNat + (15#4).toNat ≤ 0x1000) := by decide
/-- A one-row sprite at (0, 0) that hits the lit cell (0, 0), and the same on a blank display. -/
theorem witness_DrawTogglesTheSpriteCells_hit :
    (atI State.reset [0x80]).spriteHits 0 1 1 0 0 ∧
    ¬(atI State.reset [0x80]).spriteHits 0 1 0 0 0 :=
  ⟨⟨0, 0, by decide, by decide, by decide, by decide⟩, fun ⟨_, _, h, _⟩ => absurd h (Nat.not_lt_zero _)⟩
theorem witness_CollisionFlagIsExact :
    (∃ t, exec (.drwVxVyN 0 1 1) { atI State.reset [0x80] with disp := Display.blank.setCell 0 0 true } =
        .next t ∧ (Display.blank.setCell 0 0 true)[(0 : Fin 32)][(0 : Fin 64)] = true ∧
        t.disp[(0 : Fin 32)][(0 : Fin 64)] = false) ∧
    ¬∃ (r : Fin 32) (c : Fin 64), State.reset.disp[r][c] = true ∧ State.reset.disp[r][c] = false :=
  ⟨⟨_, rfl, by decide +kernel, by decide +kernel⟩, fun ⟨_, _, h, h'⟩ => by
    rw [h] at h'; exact absurd h' (by decide)⟩
theorem witness_DrawReportsEachChangedCellOnce :
    (1#4) = 0 ∨ { State.reset with i := 0xFFF }.i.toNat + (1#4).toNat ≤ 0x1000 := by decide
theorem witness_DrawEventsFollowTheScanOrder :
    (15#4) = 0 ∨ { State.reset with i := 0xFF1 }.i.toNat + (15#4).toNat ≤ 0x1000 := by decide
theorem witness_DrawingTwiceRestoresTheDisplay :
    (14 : Reg) ≠ 15 ∧ (0 : Reg) ≠ 15 ∧
    ((15#4) = 0 ∨ { State.reset with i := 0xFF1 }.i.toNat + (15#4).toNat ≤ 0x1000) := by decide
theorem witness_TargetWrapsOrClips :
    (63 < 64 ∧ 31 < 32) ∧ (64 ≤ 64 ∨ 32 ≤ 31) ∧ (64 ≤ 63 ∨ 32 ≤ 32) ∧
    (14 < 15 ∧ 7 < 8) ∧ target .wrap (255 + 7) (255 + 14) = some (13, 6) ∧
    target .clip (56 + 7) (17 + 14) = some (31, 63) := by decide
/-- Key 15 selected by 0xFF, pressed and not. -/
theorem witness_SkipIfKeyPressed :
    (15 : Fin 16).val = ((regs [(0, 0xFF)]).v[(0 : Reg)]).toNat % 16 ∧
    (press [15])[(15 : Fin 16)] = true ∧ (press [])[(15 : Fin 16)] = false := by decide
theorem witness_SkipIfKeyNotPressed :
    (0 : Fin 16).val = ((regs [(0, 0xF0)]).v[(0 : Reg)]).toNat % 16 ∧
    (press [])[(0 : Fin 16)] = false ∧ (press [0])[(0 : Fin 16)] = true := by decide

end Sys2Proof.Tests
end

section
/-! PROOFS. The state: what each instruction leaves alone, what it may read, and the invariant of the core
(spec/10_state.md). -/

namespace Sys2Proof.Machine

open Host (Outcome)

/-! ## The instructions that can fault, one equation per branch

The branch is chosen by the call stack or by one memory access, so each equation names that test's answer and
no more of the state. -/

/-! Call and return (R101, R103). -/

theorem execRet_of_empty (s : State) (h : s.sp = 0) :
    execRet s = .next (s.raise .stackUnderflow 0) := by
  rw [execRet, pop_of_empty s h]

theorem execRet_of_some (s : State) (n : Fin 16) (h : s.sp = n.succ) :
    execRet s = .next { s with pc := s.stack[n], sp := n.castSucc } := by
  rw [execRet, pop_of_some s n h]
  rfl

theorem execCall_of_full (nnn : BitVec 12) (s : State) (h : s.sp = 16) :
    execCall nnn s = .next (s.raise .stackOverflow 0) := by
  rw [execCall, push_of_full s _ h]

theorem execCall_of_room (nnn : BitVec 12) (s : State) (n : Fin 16) (h : s.sp = n.castSucc) :
    execCall nnn s = .next
      { s with stack := s.stack.set n (s.pc + 2), sp := n.succ, pc := addressOf nnn } := by
  rw [execCall, push_of_room s _ n h]
  rfl

/-! The draw, the two stores and the block load (R143, R144, R145, R161). -/

theorem execDrwVxVyN_of_error (x y : Reg) (n : BitVec 4) (s : State) (bad : Nat)
    (h : memRead s.mem s.i.toNat n.toNat = .error bad) :
    execDrwVxVyN x y n s = .next (s.raise .dataOutOfRange bad) := by
  rw [execDrwVxVyN, h]

theorem execDrwVxVyN_of_ok (x y : Reg) (n : BitVec 4) (s : State) (sprite : List Byte)
    (h : memRead s.mem s.i.toNat n.toNat = .ok sprite) :
    execDrwVxVyN x y n s = .next (s.draw x y sprite).advance := by
  rw [execDrwVxVyN, h]

theorem execLdBVx_of_error (x : Reg) (s : State) (bad : Nat)
    (h : memWrite s.mem s.i.toNat (decimalDigits (s.getV x)) = .error bad) :
    execLdBVx x s = .next (s.raise .dataOutOfRange bad) := by
  rw [execLdBVx, h]

theorem execLdBVx_of_ok (x : Reg) (s : State) (m : Memory)
    (h : memWrite s.mem s.i.toNat (decimalDigits (s.getV x)) = .ok m) :
    execLdBVx x s = .next ({ s with mem := m }).advance := by
  rw [execLdBVx, h]

theorem execLdMemVx_of_error (x : Reg) (s : State) (bad : Nat)
    (h : memWrite s.mem s.i.toNat (s.lowRegisters x) = .error bad) :
    execLdMemVx x s = .next (s.raise .dataOutOfRange bad) := by
  rw [execLdMemVx, h]

theorem execLdMemVx_of_ok (x : Reg) (s : State) (m : Memory)
    (h : memWrite s.mem s.i.toNat (s.lowRegisters x) = .ok m) :
    execLdMemVx x s = .next (State.postIncrement { s with mem := m } x).advance := by
  rw [execLdMemVx, h]

theorem execLdVxMem_of_error (x : Reg) (s : State) (bad : Nat)
    (h : memRead s.mem s.i.toNat (x.val + 1) = .error bad) :
    execLdVxMem x s = .next (s.raise .dataOutOfRange bad) := by
  rw [execLdVxMem, h]

theorem execLdVxMem_of_ok (x : Reg) (s : State) (bytes : List Byte)
    (h : memRead s.mem s.i.toNat (x.val + 1) = .ok bytes) :
    execLdVxMem x s = .next ((s.setLowRegisters bytes).postIncrement x).advance := by
  rw [execLdVxMem, h]

/-! ## Items of state that few instructions use

`Item.put` overwrites one item. An instruction that does not use the item does the same with the new
contents as with the old and leaves them (`exec_put`): it neither reads nor writes it. -/

/-- An item of state with contents to put in its place. -/
inductive Item where
  | callStack (sp : Fin 17) (stack : Vector Word 16)
  | dt (b : Byte)
  | st (b : Byte)
  | mem (m : Memory)
  | keys (k : Keys)
  | kprev (k : Keys)
  | rnd (b : Byte)
  | disp (d : Display)
  | mode (m : Mode)
  | events (es : List Event)

/-- Overwrite the item, and nothing else. -/
def Item.put : Item → State → State
  | .callStack n k, s => { s with sp := n, stack := k }
  | .dt b, s => { s with dt := b }
  | .st b, s => { s with st := b }
  | .mem m, s => { s with mem := m }
  | .keys k, s => { s with keys := k }
  | .kprev k, s => { s with kprev := k }
  | .rnd b, s => { s with rnd := b }
  | .disp d, s => { s with disp := d }
  | .mode m, s => { s with mode := m }
  | .events es, s => { s with events := es }

/-- The instruction's rule names the item, as read or as written (R26, R28, R29, R31, R33 to R37,
R167). No rule names KPREV but the key wait of a Cycle (R183). -/
def Item.usedBy : Item → Instr → Bool
  | .callStack _ _, i => match i with | .call _ | .ret => true | _ => false
  | .dt _, i => match i with | .ldVxDt _ | .ldDtVx _ => true | _ => false
  | .st _, i => match i with | .ldStVx _ => true | _ => false
  | .mem _, i => match i with
    | .drwVxVyN _ _ _ | .ldBVx _ | .ldMemVx _ | .ldVxMem _ => true | _ => false
  | .keys _, i => match i with | .skpVx _ | .sknpVx _ => true | _ => false
  | .kprev _, _ => false
  | .rnd _, i => match i with | .rndVxNn _ _ => true | _ => false
  | .disp _, i | .events _, i => match i with | .cls | .drwVxVyN _ _ _ => true | _ => false
  | .mode _, i => match i with
    | .ret | .call _ | .drwVxVyN _ _ _ | .ldVxK _ | .ldBVx _ | .ldMemVx _ | .ldVxMem _ => true
    | _ => false

/-- In the six instructions that can fault the test that chooses the branch does not look at the item, so the
same branch is taken whatever its contents. -/
theorem exec_put_next (p : Item) (i : Instr) (s : State) (h : p.usedBy i = false) :
    ∃ t, exec i s = .next t ∧ exec i (p.put s) = .next (p.put t) := by
  cases i
  case ret =>
    rcases sp_empty_or_some s.sp with e | ⟨n, e⟩
    · cases p <;> cases h <;> exact ⟨_, execRet_of_empty _ e, execRet_of_empty _ e⟩
    · cases p <;> cases h <;> exact ⟨_, execRet_of_some _ n e, execRet_of_some _ n e⟩
  case call nnn =>
    rcases sp_full_or_room s.sp with e | ⟨n, e⟩
    · cases p <;> cases h <;> exact ⟨_, execCall_of_full nnn _ e, execCall_of_full nnn _ e⟩
    · cases p <;> cases h <;> exact ⟨_, execCall_of_room nnn _ n e, execCall_of_room nnn _ n e⟩
  case drwVxVyN x y n =>
    cases e : memRead s.mem s.i.toNat n.toNat
    · cases p <;> cases h <;>
        exact ⟨_, execDrwVxVyN_of_error x y n _ _ e, execDrwVxVyN_of_error x y n _ _ e⟩
    · cases p <;> cases h <;>
        exact ⟨_, execDrwVxVyN_of_ok x y n _ _ e, execDrwVxVyN_of_ok x y n _ _ e⟩
  case ldBVx x =>
    cases e : memWrite s.mem s.i.toNat (decimalDigits (s.getV x))
    · cases p <;> cases h <;> exact ⟨_, execLdBVx_of_error x _ _ e, execLdBVx_of_error x _ _ e⟩
    · cases p <;> cases h <;> exact ⟨_, execLdBVx_of_ok x _ _ e, execLdBVx_of_ok x _ _ e⟩
  case ldMemVx x =>
    cases e : memWrite s.mem s.i.toNat (s.lowRegisters x)
    · cases p <;> cases h <;> exact ⟨_, execLdMemVx_of_error x _ _ e, execLdMemVx_of_error x _ _ e⟩
    · cases p <;> cases h <;> exact ⟨_, execLdMemVx_of_ok x _ _ e, execLdMemVx_of_ok x _ _ e⟩
  case ldVxMem x =>
    cases e : memRead s.mem s.i.toNat (x.val + 1)
    · cases p <;> cases h <;> exact ⟨_, execLdVxMem_of_error x _ _ e, execLdVxMem_of_error x _ _ e⟩
    · cases p <;> cases h <;> exact ⟨_, execLdVxMem_of_ok x _ _ e, execLdVxMem_of_ok x _ _ e⟩
  all_goals cases p <;> cases h <;> exact ⟨_, rfl, rfl⟩

/-- An instruction that does not use an item does the same whatever its contents, and leaves them. -/
theorem exec_put {i : Instr} {s t : State} (p : Item) (h : exec i s = .next t)
    (hp : p.usedBy i = false) : exec i (p.put s) = .next (p.put t) := by
  obtain ⟨u, hu, hput⟩ := exec_put_next p i s hp
  obtain rfl := Outcome.next.inj (hu.symm.trans h)
  exact hput

/-! An item is not used by an instruction that is none of its named readers and writers. -/

section

variable {i : Instr}

theorem Item.usedBy_callStack_eq_false (hc : ∀ nnn, i ≠ .call nnn) (hr : i ≠ .ret) (n : Fin 17)
    (k : Vector Word 16) : (Item.callStack n k).usedBy i = false :=
  Bool.eq_false_iff.2 fun hu => match i, hu with
    | .call nnn, _ => hc nnn rfl
    | .ret, _ => hr rfl

theorem Item.usedBy_dt_eq_false (h07 : ∀ x, i ≠ .ldVxDt x) (h15 : ∀ x, i ≠ .ldDtVx x) (b : Byte) :
    (Item.dt b).usedBy i = false :=
  Bool.eq_false_iff.2 fun hu => match i, hu with
    | .ldVxDt x, _ => h07 x rfl
    | .ldDtVx x, _ => h15 x rfl

theorem Item.usedBy_st_eq_false (h18 : ∀ x, i ≠ .ldStVx x) (b : Byte) :
    (Item.st b).usedBy i = false :=
  Bool.eq_false_iff.2 fun hu => match i, hu with
    | .ldStVx x, _ => h18 x rfl

theorem Item.usedBy_mem_eq_false (h33 : ∀ x, i ≠ .ldBVx x) (h55 : ∀ x, i ≠ .ldMemVx x)
    (hd : ∀ x y n, i ≠ .drwVxVyN x y n) (h65 : ∀ x, i ≠ .ldVxMem x) (m : Memory) :
    (Item.mem m).usedBy i = false :=
  Bool.eq_false_iff.2 fun hu => match i, hu with
    | .ldBVx x, _ => h33 x rfl
    | .ldMemVx x, _ => h55 x rfl
    | .drwVxVyN x y n, _ => hd x y n rfl
    | .ldVxMem x, _ => h65 x rfl

theorem Item.usedBy_keys_eq_false (h9E : ∀ x, i ≠ .skpVx x) (hA1 : ∀ x, i ≠ .sknpVx x) (k : Keys) :
    (Item.keys k).usedBy i = false :=
  Bool.eq_false_iff.2 fun hu => match i, hu with
    | .skpVx x, _ => h9E x rfl
    | .sknpVx x, _ => hA1 x rfl

theorem Item.usedBy_rnd_eq_false (hc : ∀ x nn, i ≠ .rndVxNn x nn) (b : Byte) :
    (Item.rnd b).usedBy i = false :=
  Bool.eq_false_iff.2 fun hu => match i, hu with
    | .rndVxNn x nn, _ => hc x nn rfl

end

/-! ## MODE and the output: written, never read -/

/-- No instruction reads MODE: `FX0A` and a fault overwrite it, whatever it was; the rest keep it (R31). -/
theorem exec_mode (i : Instr) (s : State) : ∃ t, exec i s = .next t ∧
    ((∀ m : Mode, exec i { s with mode := m } = .next { t with mode := m }) ∨
      ∀ m : Mode, exec i { s with mode := m } = .next t) := by
  cases hu : (Item.mode s.mode).usedBy i with
  | false =>
    obtain ⟨t, h⟩ := exec_next i s
    exact ⟨t, h, .inl fun m => exec_put (.mode m) h hu⟩
  | true =>
    cases i with
    | ldVxK x => exact ⟨_, rfl, .inr fun _ => rfl⟩
    | ret =>
      rcases sp_empty_or_some s.sp with e | ⟨n, e⟩
      · exact ⟨_, execRet_of_empty _ e, .inr fun _ => execRet_of_empty _ e⟩
      · exact ⟨_, execRet_of_some _ n e, .inl fun _ => execRet_of_some _ n e⟩
    | call nnn =>
      rcases sp_full_or_room s.sp with e | ⟨n, e⟩
      · exact ⟨_, execCall_of_full nnn _ e, .inr fun _ => execCall_of_full nnn _ e⟩
      · exact ⟨_, execCall_of_room nnn _ n e, .inl fun _ => execCall_of_room nnn _ n e⟩
    | drwVxVyN x y n =>
      cases e : memRead s.mem s.i.toNat n.toNat
      · exact ⟨_, execDrwVxVyN_of_error x y n _ _ e, .inr fun _ => execDrwVxVyN_of_error x y n _ _ e⟩
      · exact ⟨_, execDrwVxVyN_of_ok x y n _ _ e, .inl fun _ => execDrwVxVyN_of_ok x y n _ _ e⟩
    | ldBVx x =>
      cases e : memWrite s.mem s.i.toNat (decimalDigits (s.getV x))
      · exact ⟨_, execLdBVx_of_error x _ _ e, .inr fun _ => execLdBVx_of_error x _ _ e⟩
      · exact ⟨_, execLdBVx_of_ok x _ _ e, .inl fun _ => execLdBVx_of_ok x _ _ e⟩
    | ldMemVx x =>
      cases e : memWrite s.mem s.i.toNat (s.lowRegisters x)
      · exact ⟨_, execLdMemVx_of_error x _ _ e, .inr fun _ => execLdMemVx_of_error x _ _ e⟩
      · exact ⟨_, execLdMemVx_of_ok x _ _ e, .inl fun _ => execLdMemVx_of_ok x _ _ e⟩
    | ldVxMem x =>
      cases e : memRead s.mem s.i.toNat (x.val + 1)
      · exact ⟨_, execLdVxMem_of_error x _ _ e, .inr fun _ => execLdVxMem_of_error x _ _ e⟩
      · exact ⟨_, execLdVxMem_of_ok x _ _ e, .inl fun _ => execLdVxMem_of_ok x _ _ e⟩
    | _ => cases hu

/-- The instruction appends `es` to the output of the Cycle, whatever was emitted before (R33). -/
def Emits (i : Instr) (s t : State) (es : List Event) : Prop :=
  t.events = s.events ++ es ∧
    ∀ old : List Event, exec i { s with events := old } = .next { t with events := old ++ es }

/-- An instruction that keeps every earlier output emits nothing. -/
theorem emits_nil {i : Instr} {s t : State} (h : exec i s = .next t)
    (hold : ∀ old : List Event, exec i { s with events := old } = .next { t with events := old }) :
    Emits i s t [] := by
  have ht : t = { t with events := s.events } := Outcome.next.inj (h.symm.trans (hold s.events))
  refine ⟨?_, fun old => ?_⟩
  · rw [List.append_nil, ht]
  · rw [List.append_nil, hold old]

/-- `00E0` and a draw append what they emit; no other instruction emits (R160, R164). -/
theorem exec_emits {i : Instr} {s t : State} (h : exec i s = .next t) : ∃ es, Emits i s t es := by
  cases hu : (Item.events s.events).usedBy i with
  | false => exact ⟨[], emits_nil h fun old => exec_put (.events old) h hu⟩
  | true =>
    cases i with
    | cls =>
      obtain rfl := Outcome.next.inj h
      exact ⟨[.fullClear], rfl, fun _ => rfl⟩
    | drwVxVyN x y n =>
      cases e : memRead s.mem s.i.toNat n.toNat with
      | error bad =>
        obtain rfl := Outcome.next.inj (h.symm.trans (execDrwVxVyN_of_error x y n s bad e))
        exact ⟨[], emits_nil h fun _ => execDrwVxVyN_of_error x y n _ bad e⟩
      | ok sprite =>
        obtain rfl := Outcome.next.inj (h.symm.trans (execDrwVxVyN_of_ok x y n s sprite e))
        exact ⟨_, rfl, fun _ => execDrwVxVyN_of_ok x y n _ sprite e⟩
    | _ => cases hu

/-! ## What one instruction can do to the state -/

/-- The state `t` that instruction `i` leaves of `s`, as far as the rules over all instructions ask: it
faults, goes on to the next instruction, transfers control, or starts the key wait. -/
inductive Effect (i : Instr) (s : State) : State → Prop where
  /-- A fault changes MODE alone, and its record agrees with the state when the instruction was fetched from
  inside MEM (R200, R205). -/
  | fault {c a} (record : s.pc.toNat + 1 < memSize → s.haltRecordOk c s.pc a) :
    Effect i s (s.raise c a)
  /-- An instruction outside the list of R109 ends at pc0 + 2; a register it does not name keeps its value,
  and memory changes for the two stores only. -/
  | advance {v ix dt st disp mem events} (straight : transfersControl i = false)
    (regsKept : ∀ r : Reg, writesV i r = false → v[r] = s.v[r])
    (memKept : (∀ x, i ≠ .ldBVx x) → (∀ x, i ≠ .ldMemVx x) → mem = s.mem)
    (memWf : s.mem.wf → mem.wf) :
    Effect i s { s with
      v := v, i := ix, dt := dt, st := st, disp := disp, mem := mem, events := events, pc := s.pc + 2 }
  /-- A jump, call, return or skip changes PC and the call stack, within the bounds of R24. -/
  | transfer {a sp stack} (transfers : transfersControl i = true)
    (bounded : s.pc.toNat + 1 < memSize → (∀ k : Fin 16, (s.stack[k]).toNat ≤ 0x1000) →
      a.toNat ≤ 0x10FE ∧ ∀ k : Fin 16, (stack[k]).toNat ≤ 0x1000) :
    Effect i s { s with pc := a, sp := sp, stack := stack }
  /-- `FX0A` changes MODE alone (R182). -/
  | wait {x} (transfers : transfersControl i = true) : Effect i s { s with mode := .awaitingKey x }

/-! The values that end up in PC and on the stack stay under the bounds of R24. -/

theorem toNat_add_small {pc d : Word} (h : pc.toNat + 1 < memSize) (hd : d.toNat ≤ 4) :
    (pc + d).toNat = pc.toNat + d.toNat := by
  unfold memSize at h
  rw [BitVec.toNat_add]
  omega

theorem skipTarget_le {pc : Word} (c : Bool) (h : pc.toNat + 1 < memSize) :
    (pc + (if c then 4 else 2)).toNat ≤ 0x10FE := by
  have hd : (if c then 4 else 2 : Word).toNat ≤ 4 := by cases c <;> decide
  rw [toNat_add_small h hd]
  unfold memSize at h
  omega

theorem addressOf_le (nnn : BitVec 12) : (addressOf nnn).toNat ≤ 0x10FE := by
  rw [addressOf_toNat]
  omega

theorem jumpSum_le (nnn : BitVec 12) (b : Byte) :
    (BitVec.ofNat 16 (nnn.toNat + b.toNat)).toNat ≤ 0x10FE := by
  rw [BitVec.toNat_ofNat]
  omega

theorem stack_set_le {stack : Vector Word 16} {a : Word} (n : Fin 16)
    (h : ∀ k : Fin 16, (stack[k]).toNat ≤ 0x1000) (ha : a.toNat ≤ 0x1000) (k : Fin 16) :
    ((stack.set n a)[k]).toNat ≤ 0x1000 := by
  rw [Fin.getElem_fin, Vector.getElem_set]
  split
  · exact ha
  · exact h k

/-! The registers that a write does not name keep their value (R20). -/

theorem getElem_set_of_unnamed {v : Vector Byte 16} {x r : Reg} {b : Byte} (h : (r == x) = false) :
    (v.set x b)[r] = v[r] := by
  rw [getElem_set_reg, if_neg (by simpa using h)]

theorem getElem_set_flag_of_unnamed {v : Vector Byte 16} {x r : Reg} {b f : Byte}
    (h : (r == x || r == regF) = false) : ((v.set x b).set regF f)[r] = v[r] := by
  obtain ⟨hx, hf⟩ := Bool.or_eq_false_iff.1 h
  rw [getElem_set_of_unnamed hf, getElem_set_of_unnamed hx]

/-- A block load of X + 1 bytes leaves the registers past VX (R145). -/
theorem setLowRegisters_v_of_gt (s : State) (x r : Reg) (a : Nat) (h : decide (r ≤ x) = false) :
    (s.setLowRegisters (s.mem.getBytes a (x.val + 1))).v[r] = s.v[r] := by
  have hr : ¬r.val < x.val + 1 := by
    have := Fin.lt_def.1 (Fin.not_le.1 (of_decide_eq_false h))
    omega
  rw [setLowRegisters_v, Memory.getElem?_getBytes, if_neg hr, Option.getD_none]

/-! The effect of each instruction. -/

theorem effect_raise_data (i : Instr) (s : State) :
    Effect i s (s.raise .dataOutOfRange (max s.i.toNat memSize)) :=
  .fault fun hpc => ⟨rfl, rfl, hpc⟩

theorem effect_skip {i : Instr} (s : State) (c : Bool) (h : transfersControl i = true) :
    Effect i s (s.skipIf c) :=
  .transfer h fun hpc hst => ⟨skipTarget_le c hpc, hst⟩

/-- One effect per instruction; an instruction that can fault has one per branch. -/
theorem exec_effect_next (i : Instr) (s : State) : ∃ t, exec i s = .next t ∧ Effect i s t := by
  cases i with
  | cls => exact ⟨_, rfl, .advance rfl (fun _ _ => rfl) (fun _ _ => rfl) id⟩
  | ret =>
    rcases sp_empty_or_some s.sp with e | ⟨n, e⟩
    · exact ⟨_, execRet_of_empty s e, .fault fun hpc => ⟨rfl, rfl, congrArg Fin.val e, hpc⟩⟩
    · exact ⟨_, execRet_of_some s n e,
        .transfer rfl fun _ hst => ⟨(hst n).trans (by decide), hst⟩⟩
  | call nnn =>
    rcases sp_full_or_room s.sp with e | ⟨n, e⟩
    · exact ⟨_, execCall_of_full nnn s e, .fault fun hpc => ⟨rfl, rfl, congrArg Fin.val e, hpc⟩⟩
    · refine ⟨_, execCall_of_room nnn s n e, .transfer rfl fun hpc hst => ⟨addressOf_le nnn, ?_⟩⟩
      have ha : (s.pc + 2).toNat = s.pc.toNat + 2 := toNat_add_small hpc (by decide)
      unfold memSize at hpc
      exact stack_set_le n hst (by omega)
  | jp nnn => exact ⟨_, rfl, .transfer rfl fun _ hst => ⟨addressOf_le nnn, hst⟩⟩
  | jpV0Nnn nnn => exact ⟨_, rfl, .transfer rfl fun _ hst => ⟨jumpSum_le nnn _, hst⟩⟩
  | seVxNn | sneVxNn | seVxVy | sneVxVy | skpVx | sknpVx => exact ⟨_, rfl, effect_skip s _ rfl⟩
  | ldVxNn | addVxNn | ldVxVy | orVxVy | andVxVy | xorVxVy | rndVxNn | ldVxDt =>
    exact ⟨_, rfl, .advance rfl (fun _ => getElem_set_of_unnamed) (fun _ _ => rfl) id⟩
  | addVxVy | subVxVy | shrVxVy | subnVxVy | shlVxVy =>
    exact ⟨_, rfl, .advance rfl (fun _ => getElem_set_flag_of_unnamed) (fun _ _ => rfl) id⟩
  | ldVxK x => exact ⟨_, rfl, .wait rfl⟩
  | ldINnn | ldDtVx | ldStVx | addIVx | ldFVx | nop0 | nop5 | nop8 | nop9 | nopE | nopF =>
    exact ⟨_, rfl, .advance rfl (fun _ _ => rfl) (fun _ _ => rfl) id⟩
  | drwVxVyN x y n =>
    rcases execDrwVxVyN_cases x y n s with ⟨-, e⟩ | ⟨-, -, e⟩
    · exact ⟨_, e, .advance rfl (fun _ => getElem_set_of_unnamed) (fun _ _ => rfl) id⟩
    · exact ⟨_, e, effect_raise_data _ s⟩
  | ldBVx x =>
    rcases execLdBVx_cases x s with ⟨hr, e⟩ | ⟨-, e⟩
    · exact ⟨_, e, .advance rfl (fun _ _ => rfl) (fun h _ => absurd rfl (h x))
        fun hm => Memory.wf_setBytes _ _ _ hm hr⟩
    · exact ⟨_, e, effect_raise_data _ s⟩
  | ldMemVx x =>
    rcases execLdMemVx_cases x s with ⟨hr, e⟩ | ⟨-, e⟩
    · exact ⟨_, e, .advance rfl (fun _ _ => rfl) (fun _ h => absurd rfl (h x))
        fun hm => Memory.wf_setBytes _ _ _ hm (by simpa using hr)⟩
    · exact ⟨_, e, effect_raise_data _ s⟩
  | ldVxMem x =>
    rcases execLdVxMem_cases x s with ⟨-, e⟩ | ⟨-, e⟩
    · exact ⟨_, e, .advance rfl (fun r => setLowRegisters_v_of_gt s x r _) (fun _ _ => rfl) id⟩
    · exact ⟨_, e, effect_raise_data _ s⟩

/-- What an instruction did is one of the four effects. -/
theorem exec_effect {i : Instr} {s t : State} (h : exec i s = .next t) : Effect i s t := by
  obtain ⟨u, hu, he⟩ := exec_effect_next i s
  obtain rfl := Outcome.next.inj (hu.symm.trans h)
  exact he

/-! ## The invariant of the core -/

/-- The invariant without the clause on the key samples, which a Cycle breaks at its start (KEYS is refreshed)
and restores at its end (R82). -/
structure State.EngineInv (s : State) : Prop where
  memWf : s.mem.wf
  pcBound : s.pc.toNat ≤ 0x10FE
  stackBound : ∀ k : Fin 16, (s.stack[k]).toNat ≤ 0x1000
  modeAgrees : s.modeOk

theorem State.Inv.sample {s : State} (h : s.Inv) (k : Keys) (b : Byte) : (s.sample k b).EngineInv :=
  ⟨h.memWf, h.pcBound, h.stackBound, h.modeAgrees⟩

theorem State.EngineInv.endCycle {s : State} (h : s.EngineInv) : s.endCycle.Inv :=
  ⟨h.memWf, h.pcBound, h.stackBound, h.modeAgrees, rfl⟩

/-- The invariant says nothing of the timers, the script and the count of unscripted Cycles. -/
theorem State.Inv.withHost {s : State} (h : s.Inv) {dt st : Byte} {script : List HostMove} {n : Nat} :
    State.Inv { s with dt := dt, st := st, script := script, unscripted := n } :=
  ⟨h.memWf, h.pcBound, h.stackBound, h.modeAgrees, h.keysAgree⟩

theorem State.modeOk_of_running {s : State} (h : s.mode = .running) : s.modeOk := by
  simp only [State.modeOk, h]

theorem State.pc_of_awaiting {s : State} {x : Reg} (h : s.modeOk) (hm : s.mode = .awaitingKey x) :
    s.pc.toNat + 1 < memSize := by
  simpa only [State.modeOk, hm] using h

/-- An instruction fetched from inside MEM keeps the invariant. -/
theorem State.EngineInv.afterExec {i : Instr} {s t : State} (hs : s.EngineInv) (hm : s.mode = .running)
    (hpc : s.pc.toNat + 1 < memSize) (h : exec i s = .next t) : t.EngineInv := by
  obtain ⟨hmem, hpcb, hst, -⟩ := hs
  cases exec_effect h with
  | fault record => exact ⟨hmem, hpcb, hst, record hpc⟩
  | advance straight regsKept memKept memWf =>
    exact ⟨memWf hmem, skipTarget_le false hpc, hst, State.modeOk_of_running hm⟩
  | transfer transfers bounded =>
    obtain ⟨ha, hk⟩ := bounded hpc hst
    exact ⟨hmem, ha, hk, State.modeOk_of_running hm⟩
  | wait transfers => exact ⟨hmem, hpcb, hst, hpc⟩

theorem State.EngineInv.afterPoll {s : State} {x : Reg} (hs : s.EngineInv) (hm : s.mode = .awaitingKey x) :
    (s.pollKey x).EngineInv := by
  cases hk : newKey? s.keys s.kprev with
  | none => rwa [pollKey_of_none s x hk]
  | some k =>
    rw [pollKey_of_new s x k hk]
    exact ⟨hs.memWf, skipTarget_le false (State.pc_of_awaiting hs.modeAgrees hm), hs.stackBound, trivial⟩

theorem State.EngineInv.afterFetchFault {s : State} (hs : s.EngineInv) (hpc : memSize ≤ s.pc.toNat + 1) :
    (s.raise .fetchOutOfRange (max s.pc.toNat memSize)).EngineInv :=
  ⟨hs.memWf, hs.pcBound, hs.stackBound, rfl, rfl, hpc⟩

/-- A Cycle keeps the invariant, by what its engine does in each MODE (R82). -/
theorem cycle_keeps_inv {k : Keys} {b : Byte} {s t : State} (hs : s.Inv) (h : cycle k b s = .next t) :
    t.Inv := by
  have hsample := hs.sample k b
  obtain ⟨-, hpc, rfl⟩ | ⟨hm, hpc, u, hu, rfl⟩ | ⟨x, hm, rfl⟩ | ⟨c, p, a, -, rfl⟩ := cycle_cases k b s t h
  · exact (hsample.afterFetchFault hpc).endCycle
  · exact (hsample.afterExec hm hpc hu).endCycle
  · exact (hsample.afterPoll hm).endCycle
  · exact hsample.endCycle

/-- The reset values meet the invariant over any canonical memory and any configuration (R40). -/
theorem inv_of_reset {m : Memory} (hm : m.wf) (config : Config) :
    State.Inv { State.reset with mem := m, config := config } :=
  have hpc : State.reset.pc.toNat ≤ 0x10FE := by decide
  have hst : ∀ k : Fin 16, (State.reset.stack[k]).toNat ≤ 0x1000 := by decide
  ⟨hm, hpc, hst, trivial, rfl⟩

/-- Settles O16: the image is held in canonical form, the rest is `inv_of_reset`. -/
theorem everyResetMeetsInvariant : Obligations.EveryResetMeetsInvariant :=
  fun image config => inv_of_reset (Memory.wf_ofImage image) config

/-- Settles O15: the all-zero image of the model's own reset. -/
theorem resetMeetsInvariant : Obligations.ResetMeetsInvariant :=
  inv_of_reset wf_reset configAtReset

/-- Settles O14, by the kind of the host's move: a Cycle by `cycle_keeps_inv`, a Tick moves the timers alone,
a Reset starts anew. -/
theorem stepKeepsInvariant : Obligations.StepKeepsInvariant := by
  intro s t hs h
  obtain ⟨k, b, rest, -, hc⟩ | ⟨rest, -, rfl⟩ | ⟨image, config, rest, -, rfl⟩ | ⟨-, n, k, b, hc⟩ :=
    step_cases s t h
  · exact cycle_keeps_inv hs.withHost hc
  · exact hs.withHost
  · exact (everyResetMeetsInvariant image config).withHost
  · exact cycle_keeps_inv hs.withHost hc

/-- Settles O11, with the image laid down as the memory (R40, R240). -/
theorem resetRestoresEveryItem : Obligations.ResetRestoresEveryItem := by
  intro s image config rest h
  refine ⟨Memory.ofImage image, fun a => ?_, step_reset s image config rest h⟩
  exact Memory.get_ofImage image a.val a.isLt

/-! ## Memory -/

namespace Memory

theorem get_head (c : Host.Cell) (m : Memory) : Memory.get (c :: m) c.1 = c.2 := if_pos rfl

theorem get_cons_of_lt {c : Host.Cell} {m : Memory} {a : Nat} (h : Memory.wf (c :: m)) (ha : a < c.1) :
    Memory.get (c :: m) a = 0 := by
  obtain ⟨hlt, -, -, -⟩ := (wf_cons c m).1 h
  exact get_of_lt _ a (List.forall_mem_cons.2 ⟨ha, fun d hd => ha.trans (hlt d hd)⟩)

/-- The first cell of a canonical memory is listed by every memory that reads alike, so no such memory starts
above it. -/
theorem head_le {c d : Host.Cell} {m m' : Memory} (h : Memory.wf (c :: m)) (h' : Memory.wf (d :: m'))
    (hget : ∀ a, Memory.get (c :: m) a = Memory.get (d :: m') a) : d.1 ≤ c.1 := by
  obtain ⟨-, -, hc, -⟩ := (wf_cons c m).1 h
  by_contra hlt
  exact hc (by rw [← get_head c m, hget, get_cons_of_lt h' (by omega)])

/-- Memories in canonical form that read alike are equal: their first cells agree, and then their rests read
alike. -/
theorem wf_ext {m m' : Memory} (h : m.wf) (h' : m'.wf) (hget : ∀ a, m.get a = m'.get a) : m = m' := by
  induction m generalizing m' with
  | nil =>
    cases m' with
    | nil => rfl
    | cons d m' =>
      obtain ⟨-, -, hd, -⟩ := (wf_cons d m').1 h'
      exact absurd ((get_head d m').symm.trans (hget d.1).symm) hd
  | cons c m ih =>
    obtain ⟨hlt, -, hc, hm⟩ := (wf_cons c m).1 h
    cases m' with
    | nil => exact absurd ((get_head c m).symm.trans (hget c.1)) hc
    | cons d m' =>
      obtain ⟨hlt', -, -, hm'⟩ := (wf_cons d m').1 h'
      have haddr : c.1 = d.1 := Nat.le_antisymm (head_le h' h fun a => (hget a).symm) (head_le h h' hget)
      have hbyte : c.2 = d.2 := by rw [← get_head c m, hget, haddr, get_head]
      obtain rfl : c = d := Prod.ext haddr hbyte
      refine congrArg (c :: ·) (ih hm hm' fun a => ?_)
      by_cases ha : c.1 = a
      · subst ha
        rw [get_of_lt m _ hlt, get_of_lt m' _ hlt']
      · simpa only [get, if_neg ha] using hget a

end Memory

/-- Settles O27, by `Memory.wf_ext`. -/
theorem canonicalMemoryIsExtensional : Obligations.CanonicalMemoryIsExtensional :=
  fun _ _ => Memory.wf_ext

/-- A read inside a stored run of bytes does not depend on what was there before. -/
theorem get_setBytes_inside {m m' : Memory} {a x : Nat} {bs : List Byte} (hm : m.wf) (hm' : m'.wf)
    (hr : a + bs.length ≤ memSize) (ha : a ≤ x) (hx : x < a + bs.length) :
    (m'.setBytes a bs).get x = (m.setBytes a bs).get x := by
  have hget : bs[x - a]? = some (bs[x - a]'(by omega)) := List.getElem?_eq_getElem (by omega)
  rw [Memory.get_setBytes m a bs hm hr, Memory.get_setBytes m' a bs hm' hr, if_pos ha, if_pos ha, hget,
    Option.getD_some, Option.getD_some]

/-- A read outside a stored run of bytes gives what was there before. -/
theorem get_setBytes_outside {m : Memory} {a x : Nat} {bs : List Byte} (hm : m.wf)
    (hr : a + bs.length ≤ memSize) (hx : x < a ∨ a + bs.length ≤ x) :
    (m.setBytes a bs).get x = m.get x := by
  rw [Memory.get_setBytes m a bs hm hr]
  split
  · rw [List.getElem?_eq_none (by omega), Option.getD_none]
  · rfl

/-- In state `s` and in `s` with memory `m`, instruction `i` does the same but for MEM: the same bytes go to
the addresses from I to `last` when they are in range, and every other byte of each memory stays. -/
def StoresAlike (i : Instr) (s : State) (m : Memory) (last : Nat) : Prop :=
  ∃ (t : State) (m' : Memory), exec i s = .next t ∧
    exec i { s with mem := m } = .next { t with mem := m' } ∧
    (∀ a, last < 0x1000 → s.i.toNat ≤ a → a ≤ last → m'.get a = t.mem.get a) ∧
    (∀ a, 0x1000 ≤ last ∨ a < s.i.toNat ∨ last < a →
      m'.get a = m.get a ∧ t.mem.get a = s.mem.get a)

section
variable {i : Instr} {s t : State} {m : Memory} {last : Nat}

theorem StoresAlike.of_fault (e : exec i s = .next t)
    (e' : exec i { s with mem := m } = .next { t with mem := m }) (ht : t.mem = s.mem)
    (hlast : 0x1000 ≤ last) : StoresAlike i s m last :=
  ⟨t, m, e, e', fun _ h _ _ => absurd hlast (Nat.not_le.2 h), fun _ _ => ⟨rfl, by rw [ht]⟩⟩

theorem StoresAlike.of_store {bs : List Byte} (e : exec i s = .next t)
    (e' : exec i { s with mem := m } = .next { t with mem := m.setBytes s.i.toNat bs })
    (ht : t.mem = s.mem.setBytes s.i.toNat bs) (hs : s.mem.wf) (hm : m.wf)
    (hr : s.i.toNat + bs.length ≤ memSize) (hlast : last + 1 = s.i.toNat + bs.length) :
    StoresAlike i s m last := by
  refine ⟨t, _, e, e', fun a _ h1 h2 => ?_, fun a ha => ?_⟩
  · rw [ht, get_setBytes_inside hs hm hr h1 (by omega)]
  · have hout : a < s.i.toNat ∨ s.i.toNat + bs.length ≤ a := by
      unfold memSize at hr
      omega
    exact ⟨get_setBytes_outside hm hr hout, ht ▸ get_setBytes_outside hs hr hout⟩

end

/-- `FX33` stores three bytes (R143). -/
theorem ldBVx_storesAlike (x : Reg) {s : State} {m : Memory} (hs : s.mem.wf) (hm : m.wf) :
    StoresAlike (.ldBVx x) s m (s.i.toNat + 2) := by
  rcases execLdBVx_cases x s with ⟨hr, e⟩ | ⟨hr, e⟩ <;>
    rcases execLdBVx_cases x { s with mem := m } with ⟨hr', e'⟩ | ⟨hr', e'⟩
  · exact .of_store e e' rfl hs hm hr rfl
  · exact absurd hr (Nat.not_le.2 hr')
  · exact absurd hr' (Nat.not_le.2 hr)
  · exact .of_fault e e' rfl (Nat.le_of_lt_succ hr)

/-- `FX55` stores X + 1 bytes (R144). -/
theorem ldMemVx_storesAlike (x : Reg) {s : State} {m : Memory} (hs : s.mem.wf) (hm : m.wf) :
    StoresAlike (.ldMemVx x) s m (s.i.toNat + x.val) := by
  have hlen : (s.lowRegisters x).length = x.val + 1 := length_lowRegisters s x
  rcases execLdMemVx_cases x s with ⟨hr, e⟩ | ⟨hr, e⟩ <;>
    rcases execLdMemVx_cases x { s with mem := m } with ⟨hr', e'⟩ | ⟨hr', e'⟩
  · exact .of_store (bs := s.lowRegisters x) e e' rfl hs hm (by rwa [hlen]) (by rw [hlen, Nat.add_assoc])
  · exact absurd hr (Nat.not_le.2 hr')
  · exact absurd hr' (Nat.not_le.2 hr)
  · exact .of_fault e e' rfl (Nat.le_of_lt_succ hr)

/-- Every instruction but the two stores leaves MEM as it is (R37). -/
theorem exec_mem {i : Instr} {s t : State} (h : exec i s = .next t) (h1 : ∀ x, i ≠ .ldBVx x)
    (h2 : ∀ x, i ≠ .ldMemVx x) : t.mem = s.mem := by
  cases exec_effect h with
  | advance straight regsKept memKept memWf => exact memKept h1 h2
  | fault | transfer | wait => rfl

/-- Settles O19: the frame of `exec_mem`, the independence of `exec_put`, and `StoresAlike` for the stores. -/
theorem onlyFourInstructionsTouchMemory : Obligations.OnlyFourInstructionsTouchMemory := by
  refine ⟨fun i s t h1 h2 h => ?_, fun i s m h1 h2 h3 h4 => ?_, fun i last x s m hi hs hm => ?_⟩
  · have hmem := exec_mem h h1 h2
    exact ⟨hmem, fun a => by rw [hmem]⟩
  · obtain ⟨t, h⟩ := exec_next i s
    exact ⟨t, h, exec_put (.mem m) h (Item.usedBy_mem_eq_false h1 h2 h3 h4 m)⟩
  · obtain ⟨rfl, rfl⟩ | ⟨rfl, rfl⟩ := hi
    · exact ldBVx_storesAlike x hs hm
    · exact ldMemVx_storesAlike x hs hm

/-! ## The rules over all instructions -/

/-- Settles O21: ST and KPREV as items nothing else uses, MODE by `exec_mode`, the output by `exec_emits`. -/
theorem soundTimerKprevModeAndEventsAreUnread : Obligations.SoundTimerKprevModeAndEventsAreUnread := by
  intro i s
  obtain ⟨t, h, hmode⟩ := exec_mode i s
  refine ⟨t, h, fun b => ⟨fun h18 => exec_put (.st b) h (Item.usedBy_st_eq_false h18 b), ?_⟩,
    fun k => exec_put (.kprev k) h rfl, hmode, exec_emits h⟩
  rintro ⟨x, rfl⟩
  exact h

/-- Settles O22, item by item from `exec_put`. -/
theorem stackTimerKeysAndRandomHaveNamedReaders :
    Obligations.StackTimerKeysAndRandomHaveNamedReaders := by
  intro i s
  obtain ⟨t, h⟩ := exec_next i s
  refine ⟨t, h, fun hc hr n k => exec_put (.callStack n k) h (Item.usedBy_callStack_eq_false hc hr n k),
    fun h07 b => ⟨fun h15 => exec_put (.dt b) h (Item.usedBy_dt_eq_false h07 h15 b), ?_⟩,
    fun h9E hA1 k => exec_put (.keys k) h (Item.usedBy_keys_eq_false h9E hA1 k),
    fun hc b => exec_put (.rnd b) h (Item.usedBy_rnd_eq_false hc b)⟩
  rintro ⟨x, rfl⟩
  exact h

/-- Settles O20: none of the four effects touches these fields. -/
theorem noInstructionWritesInputsOrConfig : Obligations.NoInstructionWritesInputsOrConfig := by
  intro i s t h
  cases exec_effect h <;> exact ⟨rfl, rfl, rfl, rfl, rfl, rfl⟩

/-- Settles O23: of the four effects only going on to the next instruction writes registers. -/
theorem registersNotNamedKeepTheirValue : Obligations.RegistersNotNamedKeepTheirValue := by
  intro i s t r h hr
  cases exec_effect h with
  | advance straight regsKept memKept memWf => exact regsKept r hr
  | fault | transfer | wait => rfl

/-- A skip ends at pc0 + 2 or pc0 + 4 (R104). -/
theorem skip_pc {s t : State} {c : Bool}
    (h : (Outcome.next (s.skipIf c) : Outcome State Fault Refusal) = .next t) :
    t.pc = s.pc + 2 ∨ t.pc = s.pc + 4 := by
  obtain rfl := Outcome.next.inj h
  cases c
  · exact .inl rfl
  · exact .inr rfl

/-- Only a fault halts an engine that was not halted, and it leaves PC at pc0 (R205). -/
theorem pc_of_halted {i : Instr} {s t : State} (hs : ¬s.isHalted) (h : exec i s = .next t)
    (ht : t.isHalted) : t.pc = s.pc := by
  cases exec_effect h with
  | fault | wait => rfl
  | advance | transfer => exact absurd ht hs

/-- Outside the list of R109 an instruction that does not fault ends at pc0 + 2. -/
theorem pc_of_straight {i : Instr} {s t : State} (h : exec i s = .next t) (ht : ¬t.isHalted)
    (hi : transfersControl i = false) : t.pc = s.pc + 2 := by
  cases exec_effect h with
  | fault => exact absurd ⟨_, _, _, rfl⟩ ht
  | advance => rfl
  | transfer transfers | wait transfers => cases hi.symm.trans transfers

/-- Settles O25: the first two clauses by effect, the third from the one form of the six skips. -/
theorem programCounterAdvancesByTwo : Obligations.ProgramCounterAdvancesByTwo := by
  intro i s t hs h
  refine ⟨pc_of_halted hs h, pc_of_straight h, ?_⟩
  rintro (⟨x, nn, rfl | rfl⟩ | ⟨x, y, rfl | rfl⟩ | ⟨x, rfl | rfl⟩) <;> exact skip_pc h

theorem flag_zero_or_one {t : State} {f : Bool} (h : t.getV regF = flagByte f) :
    t.getV 15 = 0 ∨ t.getV 15 = 1 :=
  (flagByte_zero_or_one f).imp h.trans h.trans

/-- Settles O24: VF is written last, with a flag, by all six. -/
theorem flagWritersLeaveZeroOrOne : Obligations.FlagWritersLeaveZeroOrOne := by
  intro i s hi hs
  cases i with
  | addVxVy x y | subVxVy x y | shrVxVy x y | subnVxVy x y | shlVxVy x y =>
    exact ⟨_, rfl, fun _ => flag_zero_or_one (State.getV_setResultAndFlag_flag s x _ _)⟩
  | drwVxVyN x y n =>
    rcases execDrwVxVyN_cases x y n s with ⟨-, e⟩ | ⟨-, -, e⟩
    · exact ⟨_, e, fun _ => flag_zero_or_one ((State.getV_setV _ regF regF _).trans (if_pos rfl))⟩
    · exact ⟨_, e, fun ht => absurd ⟨_, _, _, rfl⟩ ht⟩
  | _ => cases hi

end Sys2Proof.Machine
end

section
/-! PROOFS. Memory: one byte written and read back (spec/20_memory.md R60, R63). -/

namespace Sys2Proof.Machine

/-- Settles O26, each clause by its law of `Memory.set`: the form is kept at an address that exists, the byte
written is read back from any canonical memory, and the other addresses keep theirs in every memory. -/
theorem memoryReadReturnsLastWrite : Obligations.MemoryReadReturnsLastWrite := by
  intro m a b hm ha
  refine ⟨?form, ?same, ?other⟩
  case form => exact Memory.wf_set m a b hm ha
  case same => exact Memory.get_set_same m a b hm
  case other => exact fun a' hne => Memory.get_set_other m a a' b hne

end Sys2Proof.Machine
end

section
/-! PROOFS. The encoding: the decoder and the encoder undo each other, and the decoder follows the opcode map
(spec/30_encoding.md R70 to R77, R86). -/

namespace Sys2Proof

/-! ## Well-formed fall-back terms (R76) -/

@[simp] theorem wellFormed_nop0 (low : BitVec 12) :
    (Instr.nop0 low).wellFormed = true ↔ low ∉ definedLow0 := by simp [Instr.wellFormed]

@[simp] theorem wellFormed_nop5 (low : BitVec 12) :
    (Instr.nop5 low).wellFormed = true ↔ low.extractLsb' 0 4 ∉ definedLow59 := by simp [Instr.wellFormed]

@[simp] theorem wellFormed_nop8 (low : BitVec 12) :
    (Instr.nop8 low).wellFormed = true ↔ low.extractLsb' 0 4 ∉ definedLow8 := by simp [Instr.wellFormed]

@[simp] theorem wellFormed_nop9 (low : BitVec 12) :
    (Instr.nop9 low).wellFormed = true ↔ low.extractLsb' 0 4 ∉ definedLow59 := by simp [Instr.wellFormed]

@[simp] theorem wellFormed_nopE (low : BitVec 12) :
    (Instr.nopE low).wellFormed = true ↔ low.extractLsb' 0 8 ∉ definedLowE := by simp [Instr.wellFormed]

@[simp] theorem wellFormed_nopF (low : BitVec 12) :
    (Instr.nopF low).wellFormed = true ↔ low.extractLsb' 0 8 ∉ definedLowF := by simp [Instr.wellFormed]

/-! ## Decoding an encoding -/

/-- An instruction decodes from its own word: the family nibble selects the second level, the fixed bits (of a
fall-back row, their being none of the family's) its branch, and the operand fields are read back by the laws
of the three layouts (R72, R77). -/
theorem decode_encode (i : Instr) (h : i.wellFormed = true) : decode (encode i) = i := by
  cases i with
  | cls | ret => rfl
  | jp | call | ldINnn | jpV0Nnn => simp [encode, decode]
  | seVxNn | sneVxNn | ldVxNn | addVxNn | rndVxNn => simp [encode, decode]
  | drwVxVyN => simp [encode, decode]
  | seVxVy => simp [encode, decode, decodeFamily5]
  | sneVxVy => simp [encode, decode, decodeFamily9]
  | ldVxVy | orVxVy | andVxVy | xorVxVy | addVxVy | subVxVy | shrVxVy | subnVxVy | shlVxVy =>
    simp [encode, decode, decodeFamily8]
  | skpVx | sknpVx => simp [encode, decode, decodeFamilyE]
  | ldVxDt | ldVxK | ldDtVx | ldStVx | addIVx | ldFVx | ldBVx | ldMemVx | ldVxMem =>
    simp [encode, decode, decodeFamilyF]
  | nop0 => simp_all [encode, decode, decodeFamily0, definedLow0]
  | nop5 => simp_all [encode, decode, decodeFamily5, definedLow59, fieldN_packA]
  | nop8 => simp_all [encode, decode, decodeFamily8, definedLow8, fieldN_packA]
  | nop9 => simp_all [encode, decode, decodeFamily9, definedLow59, fieldN_packA]
  | nopE => simp_all [encode, decode, decodeFamilyE, definedLowE, fieldNN_packA]
  | nopF => simp_all [encode, decode, decodeFamilyF, definedLowF, fieldNN_packA]

/-- Settles O1: the two bytes put together are the encoded word, and `decode_encode` reads it. -/
theorem decodeInvertsEncode : Obligations.DecodeInvertsEncode := by
  intro i rest h
  simp [encodeBytes, decode_encode i h]

/-! ## Encoding what was decoded -/

/-- The instruction is well formed and the word is its encoding. -/
def Instr.StandsFor (i : Instr) (op : Word) : Prop := i.wellFormed = true ∧ encode i = op

@[simp] theorem extractLsb'_four_fieldNNN (op : Word) : (fieldNNN op).extractLsb' 0 4 = fieldN op := by
  rw [← fieldN_packA (family op), packA_fields]

@[simp] theorem extractLsb'_eight_fieldNNN (op : Word) : (fieldNNN op).extractLsb' 0 8 = fieldNN op := by
  rw [← fieldNN_packA (family op), packA_fields]

section
variable {op : Word} {f n : BitVec 4} {nn : Byte} {nnn : BitVec 12}

/-! A word is the packing of its operands with the fixed bits it was found to hold. -/

theorem packA_of_family (hf : family op = f) : packA f (fieldNNN op) = op := by
  rw [← hf, packA_fields]

theorem packA_of_fixed (hf : family op = f) (hn : fieldNNN op = nnn) : packA f nnn = op := by
  rw [← hn, packA_of_family hf]

theorem packI_of_family (hf : family op = f) : packI f (fieldX op) (fieldNN op) = op := by
  rw [← hf, packI_fields]

theorem packI_of_fixed (hf : family op = f) (hn : fieldNN op = nn) : packI f (fieldX op) nn = op := by
  rw [← hn, packI_of_family hf]

theorem packR_of_family (hf : family op = f) : packR f (fieldX op) (fieldY op) (fieldN op) = op := by
  rw [← hf, packR_fields]

theorem packR_of_fixed (hf : family op = f) (hn : fieldN op = n) :
    packR f (fieldX op) (fieldY op) n = op := by
  rw [← hn, packR_of_family hf]

/-! The second level of each family (R75): a discriminant's branch holds its fixed bits, and the fall-back
holds that none was found. -/

theorem decodeFamily0_standsFor (hf : family op = 0x0) : (decodeFamily0 op).StandsFor op := by
  unfold decodeFamily0
  split
  · exact ⟨rfl, show packA 0x0 0x0E0 = op from packA_of_fixed hf ‹_›⟩
  split
  · exact ⟨rfl, show packA 0x0 0x0EE = op from packA_of_fixed hf ‹_›⟩
  exact ⟨by simp_all [definedLow0], packA_of_family hf⟩

theorem decodeFamily5_standsFor (hf : family op = 0x5) : (decodeFamily5 op).StandsFor op := by
  unfold decodeFamily5
  split
  · exact ⟨rfl, packR_of_fixed hf ‹_›⟩
  · exact ⟨by simp_all [definedLow59], packA_of_family hf⟩

theorem decodeFamily8_standsFor (hf : family op = 0x8) : (decodeFamily8 op).StandsFor op := by
  unfold decodeFamily8
  iterate 9
    split
    · exact ⟨rfl, packR_of_fixed hf ‹_›⟩
  exact ⟨by simp_all [definedLow8], packA_of_family hf⟩

theorem decodeFamily9_standsFor (hf : family op = 0x9) : (decodeFamily9 op).StandsFor op := by
  unfold decodeFamily9
  split
  · exact ⟨rfl, packR_of_fixed hf ‹_›⟩
  · exact ⟨by simp_all [definedLow59], packA_of_family hf⟩

theorem decodeFamilyE_standsFor (hf : family op = 0xE) : (decodeFamilyE op).StandsFor op := by
  unfold decodeFamilyE
  iterate 2
    split
    · exact ⟨rfl, packI_of_fixed hf ‹_›⟩
  exact ⟨by simp_all [definedLowE], packA_of_family hf⟩

theorem decodeFamilyF_standsFor (hf : family op = 0xF) : (decodeFamilyF op).StandsFor op := by
  unfold decodeFamilyF
  iterate 9
    split
    · exact ⟨rfl, packI_of_fixed hf ‹_›⟩
  exact ⟨by simp_all [definedLowF], packA_of_family hf⟩

end

/-- Every word is the encoding of what it decodes to, by the family nibble (R74, R76); case `h_k` of `decode` is
family k - 1. -/
theorem decode_standsFor (op : Word) : (decode op).StandsFor op := by
  have hlt := (family op).isLt
  unfold decode
  split
  case h_1 h => exact decodeFamily0_standsFor (BitVec.eq_of_toNat_eq h)
  case h_6 h => exact decodeFamily5_standsFor (BitVec.eq_of_toNat_eq h)
  case h_9 h => exact decodeFamily8_standsFor (BitVec.eq_of_toNat_eq h)
  case h_10 h => exact decodeFamily9_standsFor (BitVec.eq_of_toNat_eq h)
  case h_15 h => exact decodeFamilyE_standsFor (BitVec.eq_of_toNat_eq h)
  case h_16 =>
    have h : (family op).toNat = 15 := by grind
    exact decodeFamilyF_standsFor (BitVec.eq_of_toNat_eq h)
  case h_2 h | h_3 h | h_11 h | h_12 h => exact ⟨rfl, packA_of_family (BitVec.eq_of_toNat_eq h)⟩
  case h_14 h => exact ⟨rfl, packR_of_family (BitVec.eq_of_toNat_eq h)⟩
  case h_4 h | h_5 h | h_7 h | h_8 h | h_13 h => exact ⟨rfl, packI_of_family (BitVec.eq_of_toNat_eq h)⟩

/-- Settles O2: that is `decode_standsFor`. -/
theorem encodeInvertsDecode : Obligations.EncodeInvertsDecode := decode_standsFor

/-! ## The opcode map (R75, R77)

Each mask of R77 keeps the family and, as its low bits say, a discriminant; the operands become 0. -/

theorem and_append_eq {j k : Nat} {a a' r : BitVec j} {b b' t : BitVec k} (h : a &&& a' = r)
    (h' : b &&& b' = t) : (a ++ b) &&& (a' ++ b') = r ++ t := by
  rw [BitVec.and_append, h, h']

theorem and_F000 (op : Word) : op &&& 0xF000 = packA (family op) 0 := by
  conv_lhs => rw [← packA_fields op]
  change _ &&& (BitVec.allOnes 4 ++ 0#12) = _
  exact and_append_eq BitVec.and_allOnes BitVec.and_zero

theorem and_F00F (op : Word) : op &&& 0xF00F = packR (family op) 0 0 (fieldN op) := by
  conv_lhs => rw [← packR_fields op]
  change packR _ _ _ _ &&& (BitVec.allOnes 4 ++ 0#4 ++ 0#4 ++ BitVec.allOnes 4) = _
  exact and_append_eq (and_append_eq (and_append_eq BitVec.and_allOnes BitVec.and_zero) BitVec.and_zero)
    BitVec.and_allOnes

theorem and_F0FF (op : Word) : op &&& 0xF0FF = packI (family op) 0 (fieldNN op) := by
  conv_lhs => rw [← packI_fields op]
  change _ &&& (BitVec.allOnes 4 ++ 0#4 ++ BitVec.allOnes 8) = _
  exact and_append_eq (and_append_eq BitVec.and_allOnes BitVec.and_zero) BitVec.and_allOnes

theorem and_FFFF (op : Word) : op &&& 0xFFFF = op := BitVec.and_allOnes

section
variable {i : Instr} {m : Word × Word} {op op' : Word}

theorem maskMatch?_mem_opcodeMap (h : i.maskMatch? = some m) : m ∈ opcodeMap := by
  cases i <;> cases h <;> decide

/-- The word of an instruction matches the instruction's row: the mask keeps the fixed bits. -/
theorem encode_and_mask (h : i.maskMatch? = some m) : encode i &&& m.1 = m.2 := by
  cases i with
  | nop0 | nop5 | nop8 | nop9 | nopE | nopF => cases h
  | cls | ret => cases h; rfl
  | jp | call | ldINnn | jpV0Nnn =>
    cases h
    rw [and_F000, encode, family_packA]
    rfl
  | seVxNn | sneVxNn | ldVxNn | addVxNn | rndVxNn =>
    cases h
    rw [and_F000, encode, family_packI]
    rfl
  | drwVxVyN =>
    cases h
    rw [and_F000, encode, family_packR]
    rfl
  | skpVx | sknpVx | ldVxDt | ldVxK | ldDtVx | ldStVx | addIVx | ldFVx | ldBVx | ldMemVx | ldVxMem =>
    cases h
    rw [and_F0FF, encode, family_packI, fieldNN_packI]
    rfl
  | seVxVy | sneVxVy | ldVxVy | orVxVy | andVxVy | xorVxVy | addVxVy | subVxVy | shrVxVy | subnVxVy
  | shlVxVy =>
    cases h
    rw [and_F00F, encode, family_packR, fieldN_packR]
    rfl

/-! Conversely, the row of a word depends on its family and, in the families with a second level, on the
discriminant alone (R74, R75); and the match of each row, read as a word, has that row. -/

theorem maskMatch?_decodeFamily5_congr (h : fieldN op = fieldN op') :
    (decodeFamily5 op).maskMatch? = (decodeFamily5 op').maskMatch? := by
  simp only [decodeFamily5, h, apply_ite Instr.maskMatch?]
  rfl

theorem maskMatch?_decodeFamily8_congr (h : fieldN op = fieldN op') :
    (decodeFamily8 op).maskMatch? = (decodeFamily8 op').maskMatch? := by
  simp only [decodeFamily8, h, apply_ite Instr.maskMatch?]
  rfl

theorem maskMatch?_decodeFamily9_congr (h : fieldN op = fieldN op') :
    (decodeFamily9 op).maskMatch? = (decodeFamily9 op').maskMatch? := by
  simp only [decodeFamily9, h, apply_ite Instr.maskMatch?]
  rfl

theorem maskMatch?_decodeFamilyE_congr (h : fieldNN op = fieldNN op') :
    (decodeFamilyE op).maskMatch? = (decodeFamilyE op').maskMatch? := by
  simp only [decodeFamilyE, h, apply_ite Instr.maskMatch?]
  rfl

theorem maskMatch?_decodeFamilyF_congr (h : fieldNN op = fieldNN op') :
    (decodeFamilyF op).maskMatch? = (decodeFamilyF op').maskMatch? := by
  simp only [decodeFamilyF, h, apply_ite Instr.maskMatch?]
  rfl

/-- The mask of a family's rows, by the family's number (R75). -/
def familyMask : Nat → Word
  | 0x0 => 0xFFFF
  | 0x5 | 0x8 | 0x9 => 0xF00F
  | 0xE | 0xF => 0xF0FF
  | _ => 0xF000

theorem mask_of_mem_opcodeMap : ∀ m ∈ opcodeMap, m.1 = familyMask (family m.2).toNat :=
  List.map_inj_left.1 rfl

theorem maskMatch?_decode_match : ∀ m ∈ opcodeMap, (decode m.2).maskMatch? = some m :=
  List.map_inj_left.1 rfl

theorem family_mask : ∀ m ∈ opcodeMap, family m.1 = BitVec.allOnes 4 :=
  List.map_inj_left.1 rfl

theorem family_of_match (hm : m ∈ opcodeMap) (h : op &&& m.1 = m.2) : family m.2 = family op := by
  rw [← h, family, BitVec.extractLsb'_and]
  exact (congrArg _ (family_mask m hm)).trans BitVec.and_allOnes

theorem fieldN_of_match (hmask : m.1 = 0xF00F) (h : op &&& m.1 = m.2) : fieldN m.2 = fieldN op := by
  rw [← h, hmask, and_F00F, fieldN_packR]

theorem fieldNN_of_match (hmask : m.1 = 0xF0FF) (h : op &&& m.1 = m.2) : fieldNN m.2 = fieldNN op := by
  rw [← h, hmask, and_F0FF, fieldNN_packI]

/-- A word and the match of a row it matches decode to the same row: they agree in the family and, where the
family has a second level, in the discriminant. -/
theorem maskMatch?_decode_of_match (hm : m ∈ opcodeMap) (h : op &&& m.1 = m.2) :
    (decode m.2).maskMatch? = (decode op).maskMatch? := by
  have hf := family_of_match hm h
  have hmask := mask_of_mem_opcodeMap m hm
  have hlt := (family op).isLt
  rw [hf] at hmask
  simp only [decode, hf]
  split
  case h_1 hk => rw [← h, hmask, hk, familyMask, and_FFFF]
  case h_6 hk => exact maskMatch?_decodeFamily5_congr (fieldN_of_match (by rw [hmask, hk, familyMask]) h)
  case h_9 hk => exact maskMatch?_decodeFamily8_congr (fieldN_of_match (by rw [hmask, hk, familyMask]) h)
  case h_10 hk => exact maskMatch?_decodeFamily9_congr (fieldN_of_match (by rw [hmask, hk, familyMask]) h)
  case h_15 hk => exact maskMatch?_decodeFamilyE_congr (fieldNN_of_match (by rw [hmask, hk, familyMask]) h)
  case h_16 =>
    have hk : (family op).toNat = 15 := by grind
    exact maskMatch?_decodeFamilyF_congr (fieldNN_of_match (by rw [hmask, hk, familyMask]) h)
  all_goals rfl

end

/-- Settles O3: a decoded row matches since the word is the encoding of what it decodes to; a matching row has
the same row as its own match, read as a word. -/
theorem decodeFollowsOpcodeMap : Obligations.DecodeFollowsOpcodeMap := by
  refine ⟨fun op m h => ⟨maskMatch?_mem_opcodeMap h, ?_⟩, fun op m hm h => ?_⟩
  · obtain ⟨-, hop⟩ := decode_standsFor op
    simpa only [hop] using encode_and_mask h
  · rw [← maskMatch?_decode_of_match hm h, maskMatch?_decode_match m hm]

/-- Settles O4, by running the decoder on each word. -/
theorem sampleWordsDecode : Obligations.SampleWordsDecode := by
  unfold Obligations.SampleWordsDecode
  decide

end Sys2Proof
end

section
/-! PROOFS. The Cycle of the decoded instruction (spec/30_encoding.md R76, R82), and the steps with nothing
scripted (spec/60_exceptions.md R215, R223). -/

namespace Sys2Proof.Machine

theorem cycle_next (k : Keys) (b : Byte) (s : State) : ∃ t, cycle k b s = .next t := by
  obtain ⟨t, ht⟩ := engine_next (s.sample k b)
  exact ⟨_, cycle_eq k b s t ht⟩

/-- Settles O12, by the host's next move: a Cycle, scripted or free, has a next state by `cycle_next`, a Tick and
a Reset are one. -/
theorem everyStepAnswersNext : Obligations.EveryStepAnswersNext := by
  intro s
  match hs : s.script with
  | [] => exact step_unscripted s hs ▸ cycle_next ..
  | .cycle k b :: rest => exact step_cycle s k b rest hs ▸ cycle_next ..
  | .tick :: rest => exact ⟨_, step_tick s rest hs⟩
  | .reset image config :: rest => exact ⟨_, step_reset s image config rest hs⟩

/-- A Cycle in mode `Running` whose bytes at PC decode to i runs i on the refreshed state. KPREV is then the
Cycle's own key vector, since no instruction writes KEYS (R82). -/
theorem cycle_of_decode {s : State} {i : Instr} (k : Keys) (b : Byte) (hm : s.mode = .running)
    (hp : s.pc.toNat + 1 < memSize)
    (hd : decode (wordOfBytes (s.mem.get s.pc.toNat) (s.mem.get (s.pc.toNat + 1))) = i) :
    ∃ t, exec i (s.sample k b) = .next t ∧ cycle k b s = .next { t with kprev := k } := by
  obtain ⟨t, ht⟩ := exec_next i (s.sample k b)
  obtain ⟨hkeys, -⟩ := noInstructionWritesInputsOrConfig i _ t ht
  have he : engine (s.sample k b) = .next t := by
    subst hd
    exact (engine_of_running (s.sample k b) hm hp).trans ht
  refine ⟨t, ht, ?_⟩
  rw [cycle_eq k b s t he, State.endCycle, hkeys]
  rfl

/-- Settles O5, by `cycle_of_decode` on the state whose script has moved on. -/
theorem stepRunsTheDecodedInstruction : Obligations.StepRunsTheDecodedInstruction := by
  intro s i k b rest hm hp hs hd _
  injection hd with hd
  injection hd with hd _
  rw [step_cycle s k b rest hs]
  exact cycle_of_decode (s := { s with script := rest }) k b hm hp hd

/-- Settles O60: the free Ticks are `decayBy`, and either step is then the same Cycle. -/
theorem unscriptedStepIsTicksThenACycle : Obligations.UnscriptedStepIsTicksThenACycle := by
  intro s hs
  refine ⟨_, _, decayBy_toNat _ s.dt, decayBy_toNat _ s.st, ?_⟩
  rw [step_unscripted s hs, step_cycle _ _ _ [] rfl, ← hs]
  rfl

/-- Settles O6: O60, and O5 of the Cycle it leaves. -/
theorem stepRunsTheDecodedInstructionUnscripted : Obligations.StepRunsTheDecodedInstructionUnscripted := by
  intro s i hm hp hs hd hwf
  obtain ⟨d, e, hdt, hst, hstep⟩ := unscriptedStepIsTicksThenACycle s hs
  obtain ⟨t, ht, hcycle⟩ := stepRunsTheDecodedInstruction
    { s with
      dt := d, st := e, unscripted := s.unscripted + 1,
      script := [.cycle (Config.freeKeys s.unscripted) (Config.freeRandom s.unscripted)] }
    i _ _ [] hm hp rfl hd hwf
  exact ⟨t, d, e, hdt, hst, hs ▸ ht, hstep.trans hcycle⟩

end Sys2Proof.Machine
end

section
/-! PROOFS. No-operation and control transfer: undefined words, jumps, call and return, the register skips
(spec/40_control_flow.md R100 to R109). -/

namespace Sys2Proof.Machine

open Host (Outcome)

/-! ## Undefined words (R100) -/

/-- A word that matches no row of the opcode map decodes to an instruction without a row. -/
theorem maskMatch?_decode_eq_none {op : Word} (h : ∀ m ∈ opcodeMap, op &&& m.1 ≠ m.2) :
    (decode op).maskMatch? = none := by
  refine Option.eq_none_iff_forall_ne_some.2 fun m hm => ?_
  obtain ⟨hmem, hmatch⟩ := decodeFollowsOpcodeMap.1 op m hm
  exact h m hmem hmatch

/-- The instructions without a row of the opcode map are the six fall-backs, and each is a no-operation. -/
theorem exec_of_maskMatch?_none {i : Instr} (s : State) (h : i.maskMatch? = none) :
    exec i s = .next s.advance := by
  cases i with
  | nop0 | nop5 | nop8 | nop9 | nopE | nopF => rfl
  | _ => cases h

/-- Settles O28: an undefined word has no row, and what has no row is a no-operation. -/
theorem undefinedWordsOnlyAdvance : Obligations.UndefinedWordsOnlyAdvance := by
  refine ⟨fun op s h => exec_of_maskMatch?_none s (maskMatch?_decode_eq_none h), fun low s => ?_⟩
  exact ⟨exec_of_maskMatch?_none s rfl, exec_of_maskMatch?_none s rfl, exec_of_maskMatch?_none s rfl,
    exec_of_maskMatch?_none s rfl, exec_of_maskMatch?_none s rfl, exec_of_maskMatch?_none s rfl⟩

/-! ## Jumps, call and return (R101 to R103, R108) -/

theorem exec_ret (s : State) : exec .ret s = execRet s := rfl

/-- Settles O33: the return pops the cell the call has just written, and SP is back at its value. -/
theorem callThenReturnRestores : Obligations.CallThenReturnRestores := by
  intro nnn s n hsp
  refine ⟨_, execCall_of_room nnn s n hsp, ?_⟩
  have htop : (s.stack.set n (s.pc + 2))[n] = s.pc + 2 := Vector.getElem_set_self n.isLt
  rw [exec_ret, execRet_of_some _ n, htop, hsp]
  rfl

/-- Settles O29: the target is the zero-extended NNN. -/
theorem jumpSetsPc : Obligations.JumpSetsPc :=
  fun nnn _ => ⟨decode_encode (.jp nnn) rfl, addressOf nnn, addressOf_toNat nnn, rfl⟩

/-- Settles O30, by whether the stack is empty. -/
theorem returnPopsOrUnderflows : Obligations.ReturnPopsOrUnderflows :=
  ⟨decode_encode .ret rfl, execRet_of_empty, execRet_of_some⟩

/-- Settles O31: a call with room on the stack, its target the zero-extended NNN. -/
theorem callPushesTheReturnAddress : Obligations.CallPushesTheReturnAddress :=
  fun nnn s n hsp =>
    ⟨decode_encode (.call nnn) rfl, addressOf nnn, addressOf_toNat nnn, execCall_of_room nnn s n hsp⟩

/-- NNN plus a register fits in PC, so the sum of `BNNN` is exact (R108). -/
theorem jumpSum_toNat (nnn : BitVec 12) (b : Byte) :
    (BitVec.ofNat 16 (nnn.toNat + b.toNat)).toNat = nnn.toNat + b.toNat := by
  rw [BitVec.toNat_ofNat]
  omega

theorem jumpRegister_of_baseline {s : State} (nnn : BitVec 12) (h : s.config.jumpUsesVx = false) :
    s.jumpRegister nnn = 0 := by
  simp [State.jumpRegister, h]

theorem jumpRegister_of_usesVx {s : State} (nnn : BitVec 12) (h : s.config.jumpUsesVx = true) :
    s.jumpRegister nnn = topNibble nnn := by
  simp [State.jumpRegister, h]

/-- Settles O35: the sum is `jumpSum_toNat`, its register chosen by JUMP_USES_VX. -/
theorem jumpWithOffsetAddsARegister : Obligations.JumpWithOffsetAddsARegister := by
  intro nnn s
  have hsum := jumpSum_toNat nnn (s.getV (s.jumpRegister nnn))
  refine ⟨decode_encode (.jpV0Nnn nnn) rfl, _, rfl, fun h => ?baseline, fun h x hx => ?usesVx⟩
  case baseline =>
    rw [hsum, jumpRegister_of_baseline nnn h]
    rfl
  case usesVx =>
    have hreg : topNibble nnn = x := Fin.ext ((topNibble_val nnn).trans hx.symm)
    rw [hsum, jumpRegister_of_usesVx nnn h, hreg, State.getV_eq]

/-! ## Register skips (R104 to R107) -/

/-! The two kinds of skip, if equal and if not equal, on the same two bytes: exactly one is taken. -/

theorem skipIf_of_eq (s : State) {a b : Byte} (h : a = b) :
    s.skipIf (a == b) = { s with pc := s.pc + 4 } ∧ s.skipIf (a != b) = { s with pc := s.pc + 2 } := by
  simp [State.skipIf, h]

theorem skipIf_of_ne (s : State) {a b : Byte} (h : a ≠ b) :
    s.skipIf (a == b) = { s with pc := s.pc + 2 } ∧ s.skipIf (a != b) = { s with pc := s.pc + 4 } := by
  simp [State.skipIf, h]

/-- Settles O34: each pair of skips is `skipIf` of the two comparisons of V[X] with its other operand. -/
theorem skipsCompareRegisters : Obligations.SkipsCompareRegisters := by
  intro x y nn s
  refine ⟨decode_encode (.seVxNn x nn) rfl, decode_encode (.sneVxNn x nn) rfl,
    decode_encode (.seVxVy x y) rfl, decode_encode (.sneVxVy x y) rfl, ?eqNn, ?neNn, ?eqVy, ?neVy⟩
  case eqNn | eqVy => exact fun h => (skipIf_of_eq s h).imp (congrArg Outcome.next) (congrArg Outcome.next)
  case neNn | neVy => exact fun h => (skipIf_of_ne s h).imp (congrArg Outcome.next) (congrArg Outcome.next)

end Sys2Proof.Machine
end

section
/-! PROOFS. Register loads, arithmetic, logic, shifts and the random byte
(spec/41_load_alu_random.md R120 to R132). -/

namespace Sys2Proof.Machine

/-! ## Instructions that write V[X] alone (R120 to R125, R131) -/

/-- Settles O36: 7XNN writes the sum of two bytes, and the `%` of `BitVec.toNat_add` is the wrap. -/
theorem loadAndAddImmediate : Obligations.LoadAndAddImmediate := by
  intro x nn s
  have hsum : (s.v[x] + nn).toNat = ((s.v[x]).toNat + nn.toNat) % 256 := BitVec.toNat_add ..
  exact ⟨decode_encode (.ldVxNn x nn) rfl, decode_encode (.addVxNn x nn) rfl, rfl, _, hsum, rfl⟩

/-- Settles O37: the three results are the operations on bytes, which act on each bit by itself. -/
theorem moveAndLogicWriteOnlyVx : Obligations.MoveAndLogicWriteOnlyVx := by
  intro x y s
  refine ⟨rfl, s.v[x] ||| s.v[y], s.v[x] &&& s.v[y], s.v[x] ^^^ s.v[y], fun k _ => ?bits, rfl, rfl, rfl⟩
  case bits => exact ⟨BitVec.getLsbD_or, BitVec.getLsbD_and, BitVec.getLsbD_xor⟩

/-- Settles O41: the mask acts on each bit of the random byte by itself. -/
theorem randomByteIsMasked : Obligations.RandomByteIsMasked :=
  fun x nn _ => ⟨decode_encode (.rndVxNn x nn) rfl, _, fun _ _ => BitVec.getLsbD_and, rfl⟩

/-! ## Instructions that write V[X] and then VF (R126 to R130, R132) -/

/-- The registers after a result and a flag, given as numbers: VF holds the flag whatever X is, V[X] the
result unless X = 15, and the others keep their value. -/
theorem exists_loadVAndFlag (s : State) (x : Reg) {result flag : Byte} {a f : Nat}
    (hresult : result.toNat = a) (hflag : flag.toNat = f) :
    ∃ v' : Vector Byte 16, s.loadVAndFlag x result flag = .next { s with v := v', pc := s.pc + 2 } ∧
      (x ≠ 15 → (v'[x]).toNat = a) ∧ (v'[15]).toNat = f ∧ ∀ r : Reg, r ≠ x → r ≠ 15 → v'[r] = s.v[r] := by
  refine ⟨(s.setResultAndFlag x result flag).v, rfl, fun hx => ?result, ?flag, fun r hrx hr => ?others⟩
  case result => rw [← State.getV_eq, State.getV_setResultAndFlag s x x _ _ hx, if_pos rfl, hresult]
  case flag => exact (congrArg BitVec.toNat (State.getV_setResultAndFlag_flag s x result flag)).trans hflag
  case others => exact (State.getV_setResultAndFlag s x r _ _ hr).trans (if_neg hrx)

/-! Flags and differences as numbers, and the source of the shifts. -/

theorem carryFlag_toNat (a b : Byte) :
    (carryFlag a b).toNat = if 255 < a.toNat + b.toNat then 1 else 0 := by
  simp [carryFlag, flagByte_toNat]

theorem noBorrowFlag_toNat (a b : Byte) :
    (noBorrowFlag a b).toNat = if b.toNat ≤ a.toNat then 1 else 0 := by
  simp [noBorrowFlag, flagByte_toNat]

theorem byteSub_toNat (a b : Byte) : (a - b).toNat = (a.toNat + 256 - b.toNat) % 256 := by
  rw [BitVec.toNat_sub]
  omega

/-- A byte with the two properties that say which register SHIFT_MODE selects is the model's source (R128). -/
theorem eq_shiftSource {s : State} {x y : Reg} {src : Byte}
    (hY : s.config.shiftMode = .shiftVY → src = s.v[y]) (hX : s.config.shiftMode = .shiftVX → src = s.v[x]) :
    src = s.shiftSource x y := by
  unfold State.shiftSource
  cases h : s.config.shiftMode with
  | shiftVY => exact hY h
  | shiftVX => exact hX h

/-- Settles O38: the sum of two bytes, and their carry. -/
theorem addSetsCarry : Obligations.AddSetsCarry :=
  fun x y s => exists_loadVAndFlag s x (BitVec.toNat_add s.v[x] s.v[y]) (carryFlag_toNat _ _)

/-- Settles O39: both subtractions are one difference, with its operands exchanged. -/
theorem subtractSetsNoBorrow : Obligations.SubtractSetsNoBorrow :=
  fun x y s =>
    ⟨exists_loadVAndFlag s x (byteSub_toNat s.v[x] s.v[y]) (noBorrowFlag_toNat _ _),
      exists_loadVAndFlag s x (byteSub_toNat s.v[y] s.v[x]) (noBorrowFlag_toNat _ _)⟩

/-- Settles O40: SHIFT_MODE enters through the source alone, and each shift is then of one byte. -/
theorem shiftsFollowTheShiftMode : Obligations.ShiftsFollowTheShiftMode := by
  intro x y s src hY hX
  obtain rfl := eq_shiftSource hY hX
  have hright (b : Byte) : (b >>> 1).toNat = b.toNat / 2 := by
    rw [BitVec.toNat_ushiftRight, Nat.shiftRight_one]
  have hleft (b : Byte) : (b <<< 1).toNat = b.toNat * 2 % 256 := by
    rw [BitVec.toNat_shiftLeft, Nat.shiftLeft_eq, pow_one]
  exact ⟨exists_loadVAndFlag s x (hright _) (shiftedOutRight_toNat _),
    exists_loadVAndFlag s x (hleft _) (shiftedOutLeft_toNat _)⟩

end Sys2Proof.Machine
end

section
/-! PROOFS. Index register and memory: the loads of I, the decimal digits and the two block transfers
(spec/42_index_memory.md R140 to R145). -/

namespace Sys2Proof.Machine

/-! ## The index register (R140 to R142) -/

/-- Settles O42: I is the zero-extended NNN. -/
theorem loadIndexSetsI : Obligations.LoadIndexSetsI :=
  fun nnn _ => ⟨decode_encode (.ldINnn nnn) rfl, addressOf nnn, addressOf_toNat nnn, rfl⟩

theorem indexSum_toNat (i : Word) (b : Byte) :
    (i + b.setWidth 16).toNat = (i.toNat + b.toNat) % 65536 := by
  rw [BitVec.toNat_add, BitVec.toNat_setWidth_of_le (by decide)]

/-- No glyph address wraps: FONT_BASE and the last glyph's offset fit in 16 bits (R142). -/
theorem glyphAddress_toNat (c : Config) (b : Byte) :
    (glyphAddress c (lowNibble b)).toNat = c.fontBase.val + 5 * (b.toNat % 16) := by
  have hbase := c.fontBase.isLt
  rw [glyphAddress, lowNibble_val, BitVec.toNat_ofNat]
  omega

/-- Settles O43, by what the sum and the glyph's address are as numbers. -/
theorem indexAddAndGlyphAddress : Obligations.IndexAddAndGlyphAddress :=
  fun x s => ⟨_, _, indexSum_toNat s.i s.v[x], glyphAddress_toNat s.config s.v[x], rfl, rfl⟩

/-! ## Stores and loads of several bytes (R143 to R145) -/

/-- The k-th byte of a stored run is read back at its own address. -/
theorem get_setBytes_of_getElem? {m : Memory} {a k : Nat} {bs : List Byte} {b : Byte} (hm : m.wf)
    (hr : a + bs.length ≤ memSize) (hk : bs[k]? = some b) : (m.setBytes a bs).get (a + k) = b := by
  rw [Memory.get_setBytes m a bs hm hr, if_pos (Nat.le_add_right a k), Nat.add_sub_cancel_left, hk,
    Option.getD_some]

/-- The k-th byte of a stored run as a number, when it was given as a number below 256. -/
theorem toNat_get_setBytes_of_getElem? {m : Memory} {a k n : Nat} {bs : List Byte} (hm : m.wf)
    (hr : a + bs.length ≤ memSize) (hn : n < 256) (hk : bs[k]? = some (BitVec.ofNat 8 n)) :
    ((m.setBytes a bs).get (a + k)).toNat = n := by
  rw [get_setBytes_of_getElem? hm hr hk, BitVec.toNat_ofNat, Nat.mod_eq_of_lt hn]

/-- Settles O44: the store of `decimalDigits`, each of them a number below 256, or the range fault. -/
theorem decimalDigitsAreStored : Obligations.DecimalDigitsAreStored := by
  intro x s
  have hbyte := (s.v[x]).isLt
  refine ⟨decode_encode (.ldBVx x) rfl, ?_⟩
  rcases execLdBVx_cases x s with ⟨hr, e⟩ | ⟨hr, e⟩
  · refine ⟨fun hm _ => ⟨_, e, ?hundreds, ?tens, ?ones, fun a ha => ?others⟩,
      fun hge => absurd hr (Nat.not_lt.2 hge)⟩
    case hundreds => exact toNat_get_setBytes_of_getElem? (k := 0) hm hr (by omega) rfl
    case tens => exact toNat_get_setBytes_of_getElem? (k := 1) hm hr (by omega) rfl
    case ones => exact toNat_get_setBytes_of_getElem? (k := 2) hm hr (by omega) rfl
    case others => exact get_setBytes_outside hm hr ha
  · exact ⟨fun _ hlt => absurd hr (Nat.not_lt.2 hlt), fun _ => e⟩

/-- Settles O45: the store of `lowRegisters`, or the range fault. -/
theorem blockStoreWritesLowRegisters : Obligations.BlockStoreWritesLowRegisters := by
  intro x s
  have hlen : (s.lowRegisters x).length = x.val + 1 := length_lowRegisters s x
  refine ⟨decode_encode (.ldMemVx x) rfl, ?_⟩
  rcases execLdMemVx_cases x s with ⟨hr, e⟩ | ⟨hr, e⟩
  · have hrun : s.i.toNat + (s.lowRegisters x).length ≤ memSize := hlen ▸ hr
    refine ⟨fun hm _ => ⟨_, _, e, fun k hk => ?stored, fun a ha => ?others, postIncrement_i_toNat s x hr⟩,
      fun hge => absurd hr (Nat.not_lt.2 hge)⟩
    case stored => exact get_setBytes_of_getElem? hm hrun (getElem?_lowRegisters s x k hk)
    case others => exact get_setBytes_outside hm hrun (by omega)
  · exact ⟨fun _ hlt => absurd hr (Nat.not_lt.2 hlt), fun _ => e⟩

/-- A block load of X + 1 bytes gives each register up to VX its byte (R145). -/
theorem setLowRegisters_v_of_le (s : State) {x k : Reg} (a : Nat) (h : k ≤ x) :
    (s.setLowRegisters (s.mem.getBytes a (x.val + 1))).v[k] = s.mem.get (a + k.val) := by
  rw [setLowRegisters_v, Memory.getElem?_getBytes, if_pos (Nat.lt_succ_of_le h), Option.getD_some]

/-- Settles O46: the registers up to VX by `setLowRegisters_v_of_le`, those past it by
`setLowRegisters_v_of_gt`, or the range fault. -/
theorem blockLoadReadsLowRegisters : Obligations.BlockLoadReadsLowRegisters := by
  intro x s
  refine ⟨decode_encode (.ldVxMem x) rfl, ?_⟩
  rcases execLdVxMem_cases x s with ⟨hr, e⟩ | ⟨hr, e⟩
  · refine ⟨fun _ => ⟨_, _, e, fun k hk => ?loaded, fun k hk => ?kept, postIncrement_i_toNat s x hr⟩,
      fun hge => absurd hr (Nat.not_lt.2 hge)⟩
    case loaded => exact setLowRegisters_v_of_le s s.i.toNat hk
    case kept => exact setLowRegisters_v_of_gt s x k s.i.toNat (decide_eq_false (Fin.not_le.2 hk))
  · exact ⟨fun hlt => absurd hr (Nat.not_lt.2 hlt), fun _ => e⟩

end Sys2Proof.Machine
end

section
/-! PROOFS. Display: the clear, the landing of sprite pixels, the draw by exclusive-or, and who touches the
grid (spec/43_display.md R160 to R167). -/

namespace Sys2Proof.Machine

open Host (Outcome)

/-! ## The clear and the reach of the display (R160, R167) -/

/-- Settles O48: the blank display has every cell false. -/
theorem clearBlanksAndEmitsFullClear : Obligations.ClearBlanksAndEmitsFullClear :=
  ⟨decode_encode .cls rfl, fun _ => ⟨Display.blank, Display.cell_blank, rfl⟩⟩

theorem Item.usedBy_disp_eq_false {i : Instr} (hc : i ≠ .cls) (hd : ∀ x y n, i ≠ .drwVxVyN x y n)
    (d : Display) : (Item.disp d).usedBy i = false :=
  Bool.eq_false_iff.2 fun hu => match i, hu with
    | .cls, _ => hc rfl
    | .drwVxVyN x y n, _ => hd x y n rfl

/-- An instruction that does not use the display leaves it: it keeps any contents, and so those it has. -/
theorem exec_disp {i : Instr} {s t : State} (h : exec i s = .next t)
    (hu : (Item.disp s.disp).usedBy i = false) : t.disp = s.disp := by
  have ht : t = { t with disp := s.disp } := Outcome.next.inj (h.symm.trans (exec_put (.disp s.disp) h hu))
  rw [ht]

/-- Settles O18: the display as an item that nothing else uses; the clear gives the same blank display
whatever was on it. -/
theorem onlyDrawAndClearTouchTheDisplay : Obligations.OnlyDrawAndClearTouchTheDisplay := by
  refine ⟨fun i s d hc hd => ?others, fun s d => ⟨_, rfl, rfl⟩⟩
  case others =>
    obtain ⟨t, h⟩ := exec_next i s
    have hu := Item.usedBy_disp_eq_false hc hd
    exact ⟨t, h, exec_disp h (hu s.disp), exec_put (.disp d) h (hu d)⟩

/-! ## Where a sprite pixel lands (R162) -/

theorem target_clip_of_off {x y : Nat} (h : 64 ≤ x ∨ 32 ≤ y) : target .clip x y = none := by
  refine Option.eq_none_iff_forall_ne_some.2 fun p hp => ?_
  have := (target_clip x y p).1 hp
  omega

/-- Settles O55, each clause by the law of `target` in that mode. -/
theorem targetWrapsOrClips : Obligations.TargetWrapsOrClips := by
  refine ⟨fun x y => ⟨_, _, rfl, rfl, rfl⟩, fun x y hx hy => ?onGrid, fun x y => target_clip_of_off, ?apart⟩
  case onGrid => exact ⟨⟨y, hy⟩, ⟨x, hx⟩, (target_clip x y _).2 ⟨rfl, rfl⟩, rfl, rfl⟩
  case apart =>
    intro mode x0 y0 row col row' col' p hr hr' hc hc'
    exact target_injective mode x0 y0 row col row' col' p
      (by omega) (by omega) (by omega) (by omega)

/-! ## The draw in range

`drawTargets` are the cells a draw toggles and `drawn` is the state it leaves; the statements about draws
follow from what `drawn` shows in the display, in VF and in the output. -/

theorem flagByte_eq_one_iff (b : Bool) : flagByte b = 1 ↔ b = true := by
  cases b <;> decide

/-- The cells that `DXYN` in state s toggles, in scan order (R161). -/
def State.drawTargets (s : State) (x y : Reg) (n : BitVec 4) : List (Fin 32 × Fin 64) :=
  spriteTargets s.config.edgeMode (s.getV x).toNat (s.getV y).toNat (s.mem.getBytes s.i.toNat n.toNat)

/-- The state that `DXYN` in range leaves. -/
def State.drawn (s : State) (x y : Reg) (n : BitVec 4) : State :=
  (s.draw x y (s.mem.getBytes s.i.toNat n.toNat)).advance

section

variable (s : State) (x y : Reg) (n : BitVec 4)

theorem exec_drwVxVyN_of_inRange (h : n = 0 ∨ s.i.toNat + n.toNat ≤ 0x1000) :
    exec (.drwVxVyN x y n) s = .next (s.drawn x y n) := by
  rcases execDrwVxVyN_cases x y n s with ⟨-, e⟩ | ⟨hn, hr, -⟩
  · exact e
  · obtain rfl | hle := h
    · exact absurd rfl hn
    · exact absurd hle (Nat.not_le.2 hr)

theorem mem_drawTargets_iff_spriteHits (r : Fin 32) (c : Fin 64) :
    (r, c) ∈ s.drawTargets x y n ↔ s.spriteHits x y n r c := mem_drawTargets s x y n (r, c)

theorem nodup_drawTargets : (s.drawTargets x y n).Nodup :=
  nodup_spriteTargets _ _ _ _ (by rw [Memory.length_getBytes]; omega)

theorem drawn_cell (r : Fin 32) (c : Fin 64) :
    (s.drawn x y n).disp[r][c] =
      if (r, c) ∈ s.drawTargets x y n then !s.disp[r][c] else s.disp[r][c] :=
  (blit_spec s.disp _ (nodup_drawTargets s x y n)).1 r c

variable {s x y n} {r : Fin 32} {c : Fin 64}

theorem drawn_cell_of_hit (h : s.spriteHits x y n r c) : (s.drawn x y n).disp[r][c] = !s.disp[r][c] := by
  rw [drawn_cell, if_pos ((mem_drawTargets_iff_spriteHits s x y n r c).2 h)]

theorem drawn_cell_of_not_hit (h : ¬s.spriteHits x y n r c) :
    (s.drawn x y n).disp[r][c] = s.disp[r][c] := by
  rw [drawn_cell, if_neg (mt (mem_drawTargets_iff_spriteHits s x y n r c).1 h)]

theorem spriteHits_iff_changed : s.spriteHits x y n r c ↔ (s.drawn x y n).disp[r][c] ≠ s.disp[r][c] := by
  refine ⟨fun h => ?_, fun h => not_imp_comm.1 drawn_cell_of_not_hit h⟩
  rw [drawn_cell_of_hit h]
  exact Bool.not_ne_self _

variable (s x y n)

/-- The events carry the cells' new values (R164). -/
theorem drawn_events :
    (s.drawn x y n).events = s.events ++
      (s.drawTargets x y n).map fun p => .pixelChanged p.1 p.2 (s.drawn x y n).disp[p.1][p.2] := by
  obtain ⟨-, -, hevents⟩ := blit_spec s.disp _ (nodup_drawTargets s x y n)
  refine (congrArg (s.events ++ ·) hevents).trans (congrArg (s.events ++ ·) ?_)
  refine List.map_congr_left fun p hp => ?_
  rw [drawn_cell_of_hit ((mem_drawTargets_iff_spriteHits s x y n p.1 p.2).1 hp)]
  rfl

/-- VF holds the flag of the whole blit, written last (R163). -/
theorem exists_flag_of_drawn : ∃ f : Bool, (s.drawn x y n).getV 15 = flagByte f ∧
    (f = true ↔ ∃ (r : Fin 32) (c : Fin 64), s.spriteHits x y n r c ∧ s.disp[r][c] = true) := by
  obtain ⟨-, hcollision, -⟩ := blit_spec s.disp _ (nodup_drawTargets s x y n)
  refine ⟨_, ((State.getV_setV _ regF regF _).trans (if_pos rfl)).trans (congrArg flagByte hcollision), ?_⟩
  rw [List.any_eq_true, Prod.exists]
  exact exists₂_congr fun r c => and_congr_left' (mem_drawTargets_iff_spriteHits s x y n r c)

theorem drawn_flag_zero_or_one : (s.drawn x y n).getV 15 = 0 ∨ (s.drawn x y n).getV 15 = 1 := by
  obtain ⟨f, hf, -⟩ := exists_flag_of_drawn s x y n
  exact hf ▸ flagByte_zero_or_one f

theorem drawn_flag_eq_one_iff : (s.drawn x y n).getV 15 = 1 ↔
    ∃ (r : Fin 32) (c : Fin 64), s.spriteHits x y n r c ∧ s.disp[r][c] = true := by
  obtain ⟨f, hf, hiff⟩ := exists_flag_of_drawn s x y n
  rw [hf, flagByte_eq_one_iff, hiff]

end

/-- Settles O49: the two kinds of cell by `drawn_cell_of_hit` and `drawn_cell_of_not_hit`. -/
theorem drawTogglesTheSpriteCells : Obligations.DrawTogglesTheSpriteCells := by
  intro x y n s h
  exact ⟨(s.drawn x y n).disp, _, _, exec_drwVxVyN_of_inRange s x y n h, flagByte_zero_or_one _,
    fun _ _ => ⟨drawn_cell_of_hit, drawn_cell_of_not_hit⟩⟩

/-- A cell becomes unset exactly when the sprite lands on it while it is set (R163). -/
theorem unset_by_draw_iff {s : State} {x y : Reg} {n : BitVec 4} {r : Fin 32} {c : Fin 64} :
    (s.disp[r][c] = true ∧ (s.drawn x y n).disp[r][c] = false) ↔
      s.spriteHits x y n r c ∧ s.disp[r][c] = true := by
  by_cases hit : s.spriteHits x y n r c
  · rw [drawn_cell_of_hit hit, Bool.not_eq_false', and_self, and_iff_right hit]
  · rw [drawn_cell_of_not_hit hit]
    exact ⟨fun ⟨hset, hunset⟩ => absurd (hset.symm.trans hunset) (by decide), fun h => absurd h.1 hit⟩

/-- Settles O50: the cells that become unset are the set cells of `drawn_flag_eq_one_iff`. -/
theorem collisionFlagIsExact : Obligations.CollisionFlagIsExact := by
  intro x y n s h
  have hflag := drawn_flag_eq_one_iff s x y n
  simp only [← unset_by_draw_iff] at hflag
  exact ⟨_, exec_drwVxVyN_of_inRange s x y n h, hflag.2,
    fun hnone => (drawn_flag_zero_or_one s x y n).resolve_right (mt hflag.1 hnone)⟩

/-- Settles O51: the events are `drawn_events`, one per target, and no target stands twice. -/
theorem drawReportsEachChangedCellOnce : Obligations.DrawReportsEachChangedCellOnce := by
  intro x y n s h
  refine ⟨_, _, exec_drwVxVyN_of_inRange s x y n h, drawn_events s x y n, ?once, fun e => ?mem,
    fun _ _ => spriteHits_iff_changed⟩
  case once =>
    refine (nodup_drawTargets s x y n).map fun p q hpq => ?_
    obtain ⟨hrow, hcol, -⟩ := Event.pixelChanged.inj hpq
    exact Prod.ext hrow hcol
  case mem =>
    rw [List.mem_map, Prod.exists]
    exact exists₂_congr fun r c => and_congr (mem_drawTargets_iff_spriteHits s x y n r c) eq_comm

/-- Settles O53: a sprite of no rows has no targets. -/
theorem emptyDrawClearsTheFlag : Obligations.EmptyDrawClearsTheFlag := by
  intro x y s
  have hevents : (s.drawn x y 0).events = s.events := List.append_nil s.events
  rw [exec_drwVxVyN_of_inRange s x y 0 (.inl rfl), ← hevents]
  rfl

/-! ## The scan order (R164) -/

/-- The 1-pixels of a sprite in memory, row by row (R161). -/
theorem spritePixels_getBytes (m : Memory) (a k n : Nat) :
    spritePixels k (m.getBytes a n) =
      (List.range n).flatMap fun row => (rowPixels (m.get (a + row))).map fun col => (k + row, col) := by
  induction n generalizing a k with
  | zero => rfl
  | succ n ih =>
    rw [Memory.getBytes, spritePixels, ih, List.range_succ_eq_map, List.flatMap_cons, List.flatMap_map]
    simp only [Nat.add_zero, Nat.succ_eq_add_one, Nat.add_comm 1, Nat.add_assoc]

/-- The targets of a draw as two loops over the rows and the columns of its sprite (R161). -/
theorem drawTargets_eq_scan (s : State) (x y : Reg) (n : BitVec 4) :
    s.drawTargets x y n = (List.range n.toNat).flatMap fun row =>
      (List.range 8).filterMap fun col =>
        if (s.mem.get (s.i.toNat + row)).getLsbD (7 - col) then
          target s.config.edgeMode ((s.getV x).toNat + col) ((s.getV y).toNat + row)
        else none := by
  rw [State.drawTargets, spriteTargets, spritePixels_getBytes, List.filterMap_flatMap]
  simp only [rowPixels, List.filterMap_map, List.filterMap_filter, Function.comp_apply, Nat.zero_add]

/-- Settles O52: `drawn_events` over the targets in the order of `drawTargets_eq_scan`. -/
theorem drawEventsFollowTheScanOrder : Obligations.DrawEventsFollowTheScanOrder := by
  intro x y n s h
  refine ⟨_, exec_drwVxVyN_of_inRange s x y n h, ?_⟩
  rw [drawn_events, drawTargets_eq_scan, List.map_flatMap]
  simp only [List.map_filterMap, apply_ite (Option.map _), Option.map_none]

/-! ## The same draw twice (R165) -/

theorem Display.ext_cells {d d' : Display} (h : ∀ (r : Fin 32) (c : Fin 64), d[r][c] = d'[r][c]) : d = d' :=
  Vector.ext fun r hr => Vector.ext fun c hc => h ⟨r, hr⟩ ⟨c, hc⟩

theorem getV_drawn_of_ne {s : State} {x y r : Reg} {n : BitVec 4} (h : r ≠ 15) :
    (s.drawn x y n).getV r = s.getV r :=
  (State.getV_setV _ regF r _).trans (if_neg h)

/-- A draw whose position is not in VF lands on the same cells again. -/
theorem spriteHits_drawn {s : State} {x y : Reg} {n : BitVec 4} {r : Fin 32} {c : Fin 64} (hx : x ≠ 15)
    (hy : y ≠ 15) : (s.drawn x y n).spriteHits x y n r c ↔ s.spriteHits x y n r c := by
  rw [State.spriteHits, getV_drawn_of_ne hx, getV_drawn_of_ne hy]
  rfl

/-- Settles O54: the second draw hits the same cells, each toggled by the first. -/
theorem drawingTwiceRestoresTheDisplay : Obligations.DrawingTwiceRestoresTheDisplay := by
  intro x y n s hx hy h
  refine ⟨_, _, exec_drwVxVyN_of_inRange s x y n h, exec_drwVxVyN_of_inRange (s.drawn x y n) x y n h,
    Display.ext_cells fun r c => ?restored, ?flag⟩
  case restored =>
    by_cases hit : s.spriteHits x y n r c
    · rw [drawn_cell_of_hit ((spriteHits_drawn hx hy).2 hit), drawn_cell_of_hit hit, Bool.not_not]
    · rw [drawn_cell_of_not_hit (mt (spriteHits_drawn hx hy).1 hit), drawn_cell_of_not_hit hit]
  case flag =>
    rw [drawn_flag_eq_one_iff]
    refine exists₂_congr fun r c => ?_
    rw [spriteHits_drawn hx hy]
    refine and_congr_right fun hit => ?_
    rw [drawn_cell_of_hit hit, Bool.not_eq_true']

end Sys2Proof.Machine
end

section
/-! PROOFS. Keys and timers: the key skips, the wait for a key and the timer moves
(spec/44_keys_timers.md R180 to R186). -/

namespace Sys2Proof.Machine

/-! ## The key skips (R180, R181) -/

/-- The key named by the low nibble of V[X], given as a number (R180). -/
theorem eq_lowNibble_getV {s : State} {x : Reg} {k : Fin 16} (hk : k.val = (s.v[x]).toNat % 16) :
    k = lowNibble (s.getV x) :=
  Fin.ext (hk.trans (lowNibble_val _).symm)

/-! Each key skip is `skipIf` of the key's level, or of its opposite. -/

theorem exec_skpVx_of_level {s : State} {x : Reg} {k : Fin 16} {level : Bool} (h : s.keys[k] = level)
    (hk : k.val = (s.v[x]).toNat % 16) : exec (.skpVx x) s = .next (s.skipIf level) := by
  obtain rfl := eq_lowNibble_getV hk
  rw [← h]
  rfl

theorem exec_sknpVx_of_level {s : State} {x : Reg} {k : Fin 16} {level : Bool} (h : s.keys[k] = level)
    (hk : k.val = (s.v[x]).toNat % 16) : exec (.sknpVx x) s = .next (s.skipIf (!level)) := by
  obtain rfl := eq_lowNibble_getV hk
  rw [← h]
  rfl

/-- Settles O56: a pressed key skips, a released one does not. -/
theorem skipIfKeyPressed : Obligations.SkipIfKeyPressed :=
  fun x _ _ hk =>
    ⟨decode_encode (.skpVx x) rfl, fun h => exec_skpVx_of_level h hk, fun h => exec_skpVx_of_level h hk⟩

/-- Settles O57: a released key skips, a pressed one does not. -/
theorem skipIfKeyNotPressed : Obligations.SkipIfKeyNotPressed :=
  fun _ _ _ hk => ⟨fun h => exec_sknpVx_of_level h hk, fun h => exec_sknpVx_of_level h hk⟩

/-! ## The key wait (R182, R183) -/

/-- Settles O58: FX0A writes MODE alone. -/
theorem awaitKeySuspends : Obligations.AwaitKeySuspends :=
  fun x _ => ⟨decode_encode (.ldVxK x) rfl, rfl⟩

/-- A Cycle of the key wait is one poll between the refresh and the keeping of the sample, and no instruction
(R82, R183). -/
theorem cycle_of_awaiting {s : State} {x : Reg} (k : Keys) (b : Byte) (hm : s.mode = .awaitingKey x) :
    cycle k b s = .next ((s.sample k b).pollKey x).endCycle :=
  cycle_eq k b s _ (engine_of_awaiting (s.sample k b) x hm)

/-- Settles O8, by whether the poll finds a new key: `newKey?_some` and `newKey?_none` say which it finds. -/
theorem keyWaitEndsOnTheLowestNewKey : Obligations.KeyWaitEndsOnTheLowestNewKey := by
  intro s x keysIn rnd rest hm hs
  have hstep := (step_cycle s keysIn rnd rest hs).trans
    (cycle_of_awaiting (s := { s with script := rest }) keysIn rnd hm)
  refine ⟨fun k hpressed hreleased hlowest => ?new, fun hnone => ?noNew⟩
  case new =>
    have hnew := (newKey?_some keysIn s.kprev k).2 ⟨⟨hpressed, hreleased⟩, hlowest⟩
    rw [hstep, pollKey_of_new _ x k hnew]
    rfl
  case noNew =>
    have hnew := (newKey?_none keysIn s.kprev).2 hnone
    rw [hstep, pollKey_of_none _ x hnew]
    rfl

/-! ## The timer moves (R184 to R186) -/

/-- Settles O59: each of the three meanings is the one byte written and the advance of PC. -/
theorem timerMovesCopyTheByte : Obligations.TimerMovesCopyTheByte :=
  fun _ _ => ⟨rfl, rfl, rfl⟩

end Sys2Proof.Machine
end

section
/-! PROOFS. Exceptions: the faults of the instructions and of the fetch, the halted core, and the Tick
(spec/60_exceptions.md R200 to R213). -/

namespace Sys2Proof.Machine

open Host (Outcome)

/-! ## The fetch fault and the halted core (R203, R208) -/

/-- A Cycle whose fetch is out of range raises between the refresh and the keeping of the sample. -/
theorem cycle_of_fetchFault {s : State} (k : Keys) (b : Byte) (hm : s.mode = .running)
    (hp : memSize ≤ s.pc.toNat + 1) :
    cycle k b s = .next ((s.sample k b).raise .fetchOutOfRange (max s.pc.toNat memSize)).endCycle :=
  cycle_eq k b s _ (engine_of_fetchFault (s.sample k b) hm hp)

/-- A Cycle of a halted core is the refresh and the keeping of the sample. -/
theorem cycle_of_halted {s : State} {c : FaultCause} {p : Word} {a : Nat} (k : Keys) (b : Byte)
    (hm : s.mode = .halted c p a) : cycle k b s = .next (s.sample k b).endCycle :=
  cycle_eq k b s _ (engine_of_halted (s.sample k b) c p a hm)

/-- Settles O7, by `cycle_of_fetchFault`: the lowest address out of range is the larger of PC and 0x1000. -/
theorem fetchOutOfRangeHalts : Obligations.FetchOutOfRangeHalts := by
  intro s keysIn rnd rest hm hpc hs
  have hlast : memSize ≤ s.pc.toNat + 1 := Nat.succ_le_succ hpc
  rw [step_cycle s keysIn rnd rest hs,
    cycle_of_fetchFault (s := { s with script := rest }) keysIn rnd hm hlast, max_def]
  rfl

/-- Settles O9: a Cycle by `cycle_of_halted`; a Tick asks nothing of MODE. -/
theorem haltedIsAbsorbing : Obligations.HaltedIsAbsorbing := by
  intro s cause pc addr rest hm
  refine ⟨fun keysIn rnd hs => ?cycle, fun hs => ?tick⟩
  case cycle =>
    exact (step_cycle s keysIn rnd rest hs).trans
      (cycle_of_halted (s := { s with script := rest }) keysIn rnd hm)
  case tick => exact ⟨_, _, decay_toNat s.dt, decay_toNat s.st, step_tick s rest hs⟩

/-! ## The Tick (R213) -/

theorem decay_toNat_eq_ite (t : Byte) : (decay t).toNat = if 0 < t.toNat then t.toNat - 1 else 0 := by
  rw [decay_toNat]
  split <;> omega

/-- Settles O10: a Tick is one `decay` of each timer. -/
theorem tickDecrementsBothTimers : Obligations.TickDecrementsBothTimers :=
  fun s rest hs => ⟨_, _, decay_toNat_eq_ite s.dt, decay_toNat_eq_ite s.st, step_tick s rest hs⟩

/-! ## The full call stack (R201) -/

/-- Settles O32, by whether the stack is full. -/
theorem callOverflowsExactlyWhenFull : Obligations.CallOverflowsExactlyWhenFull := by
  intro nnn s
  refine ⟨execCall_of_full nnn s, fun hroom => ?_⟩
  obtain ⟨n, hn⟩ := (sp_full_or_room s.sp).resolve_left hroom
  exact ⟨_, execCall_of_room nnn s n hn, rfl, congrArg (·.val + 1) hn.symm⟩

/-! ## The memory instructions (R204)

The four instructions differ in the number of bytes they access at I; the range test is the same. -/

/-- The instruction accesses `len` bytes of memory from I up. -/
inductive AccessesAtI : Instr → Nat → Prop where
  | draw (x y : Reg) (n : BitVec 4) : AccessesAtI (.drwVxVyN x y n) n.toNat
  | digits (x : Reg) : AccessesAtI (.ldBVx x) 3
  | blockStore (x : Reg) : AccessesAtI (.ldMemVx x) (x.val + 1)
  | blockLoad (x : Reg) : AccessesAtI (.ldVxMem x) (x.val + 1)

section

variable {i : Instr} {len : Nat} (hi : AccessesAtI i len) {s t : State}

include hi

/-- A memory instruction keeps MODE when its bytes are in range, and else raises `DataOutOfRange`. -/
theorem exec_access_cases (s : State) :
    ((len = 0 ∨ s.i.toNat + len ≤ memSize) ∧ ∃ t, exec i s = .next t ∧ t.mode = s.mode) ∨
    (len ≠ 0 ∧ memSize < s.i.toNat + len ∧
      exec i s = .next (s.raise .dataOutOfRange (max s.i.toNat memSize))) := by
  cases hi with
  | draw x y n => exact (execDrwVxVyN_cases x y n s).imp_left fun ⟨hr, e⟩ => ⟨hr, _, e, rfl⟩
  | digits x =>
    exact (execLdBVx_cases x s).imp (fun ⟨hr, e⟩ => ⟨.inr hr, _, e, rfl⟩) fun h => ⟨nofun, h⟩
  | blockStore x =>
    exact (execLdMemVx_cases x s).imp (fun ⟨hr, e⟩ => ⟨.inr hr, _, e, rfl⟩) fun h => ⟨nofun, h⟩
  | blockLoad x =>
    exact (execLdVxMem_cases x s).imp (fun ⟨hr, e⟩ => ⟨.inr hr, _, e, rfl⟩) fun h => ⟨nofun, h⟩

theorem exec_of_pastEnd (h0 : len ≠ 0) (hr : memSize < s.i.toNat + len) :
    exec i s = .next (s.raise .dataOutOfRange (max s.i.toNat memSize)) := by
  obtain ⟨hin, -⟩ | ⟨-, -, e⟩ := exec_access_cases hi s
  · omega
  · exact e

theorem exec_of_inRange (hr : len = 0 ∨ s.i.toNat + len ≤ memSize) :
    ∃ t, exec i s = .next t ∧ t.mode = s.mode := by
  obtain ⟨-, e⟩ | ⟨h0, hpast, -⟩ := exec_access_cases hi s
  · exact e
  · omega

theorem fault_of_access_halted (hs : ¬s.isHalted) (h : exec i s = .next t) (ht : t.isHalted) :
    len ≠ 0 ∧ t = s.raise .dataOutOfRange (max s.i.toNat memSize) := by
  obtain ⟨-, u, hu, hmode⟩ | ⟨h0, -, e⟩ := exec_access_cases hi s
  · obtain rfl := Outcome.next.inj (hu.symm.trans h)
    obtain ⟨c, p, a, hhalted⟩ := ht
    exact absurd ⟨c, p, a, hmode.symm.trans hhalted⟩ hs
  · exact ⟨h0, Outcome.next.inj (h.symm.trans e)⟩

end

/-- Settles O47: each memory instruction by its number of bytes, and the three writers of I keep MODE. -/
theorem dataOutOfRangeExactlyPastTheEnd : Obligations.DataOutOfRangeExactlyPastTheEnd := by
  intro x y n nnn s _
  have hsize : memSize = 0x1000 := rfl
  constructor
  · rintro i (⟨rfl, hn, hr⟩ | ⟨rfl, hr⟩ | ⟨rfl | rfl, hr⟩)
    · exact exec_of_pastEnd (.draw x y n) (by omega) (by omega)
    · exact exec_of_pastEnd (.digits x) (by omega) (by omega)
    · exact exec_of_pastEnd (.blockStore x) (by omega) (by omega)
    · exact exec_of_pastEnd (.blockLoad x) (by omega) (by omega)
  · rintro i (⟨rfl, hr⟩ | ⟨rfl, hr⟩ | ⟨rfl | rfl, hr⟩ | rfl | rfl | rfl)
    · exact exec_of_inRange (.draw x y n) (by omega)
    · exact exec_of_inRange (.digits x) (by omega)
    · exact exec_of_inRange (.blockStore x) (by omega)
    · exact exec_of_inRange (.blockLoad x) (by omega)
    · exact ⟨_, rfl, rfl⟩
    · exact ⟨_, rfl, rfl⟩
    · exact ⟨_, rfl, rfl⟩

/-! ## Precise faults (R200, R205, R209) -/

/-- Settles O17, instruction by instruction: call and return by their stack test, the memory instructions by
their range test; `FX0A` waits and the rest keep MODE, so none of them halts. -/
theorem faultsArePrecise : Obligations.FaultsArePrecise := by
  intro i s t hs h ht
  cases i with
  | call nnn =>
    obtain ⟨hfull, e⟩ | ⟨n, -, e⟩ := execCall_cases nnn s <;>
      obtain rfl := Outcome.next.inj (h.symm.trans e)
    · exact .inl ⟨rfl, ⟨nnn, rfl⟩, hfull⟩
    · exact absurd ht hs
  | ret =>
    obtain ⟨hempty, e⟩ | ⟨n, -, e⟩ := execRet_cases s <;>
      obtain rfl := Outcome.next.inj (h.symm.trans e)
    · exact .inr (.inl ⟨rfl, rfl, hempty⟩)
    · exact absurd ht hs
  | drwVxVyN x y n =>
    obtain ⟨hn, ht⟩ := fault_of_access_halted (.draw x y n) hs h ht
    exact .inr (.inr ⟨ht, .inl ⟨x, y, n, rfl, fun h0 => hn (congrArg BitVec.toNat h0)⟩⟩)
  | ldBVx x =>
    obtain ⟨-, ht⟩ := fault_of_access_halted (.digits x) hs h ht
    exact .inr (.inr ⟨ht, .inr (.inl ⟨x, rfl⟩)⟩)
  | ldMemVx x =>
    obtain ⟨-, ht⟩ := fault_of_access_halted (.blockStore x) hs h ht
    exact .inr (.inr ⟨ht, .inr (.inr (.inl ⟨x, rfl⟩))⟩)
  | ldVxMem x =>
    obtain ⟨-, ht⟩ := fault_of_access_halted (.blockLoad x) hs h ht
    exact .inr (.inr ⟨ht, .inr (.inr (.inr ⟨x, rfl⟩))⟩)
  | ldVxK x =>
    obtain rfl := Outcome.next.inj h
    obtain ⟨_, _, _, hmode⟩ := ht
    cases hmode
  | _ =>
    obtain rfl := Outcome.next.inj h
    exact absurd ht hs

end Sys2Proof.Machine
end

section
/-! PROOFS. The end of a run: a jump to itself leaves the core as it is (spec/70_reset_and_hazards.md R252). -/

namespace Sys2Proof.Machine

/-- The word of a jump is its zero-extended target with the family nibble set (R102). -/
theorem encode_jp_eq_or (nnn : BitVec 12) : encode (.jp nnn) = 0x1000 ||| addressOf nnn := by
  rw [encode, packA, BitVec.append_def, BitVec.setWidth'_eq]
  rfl

/-- Every address in range is a jump target. -/
theorem exists_addressOf_eq {a : Word} (h : a.toNat < memSize) : ∃ nnn, addressOf nnn = a := by
  refine ⟨a.setWidth 12, BitVec.eq_of_toNat_eq ?_⟩
  rw [addressOf_toNat, BitVec.toNat_setWidth]
  exact Nat.mod_eq_of_lt h

/-- In an ended run the bytes at PC are in range and decode to the jump to PC (R252). -/
theorem State.ended.decodes_to_self_jump {s : State} (h : s.ended) :
    s.pc.toNat + 1 < memSize ∧ ∃ nnn, addressOf nnn = s.pc ∧
      decode (wordOfBytes (s.mem.get s.pc.toNat) (s.mem.get (s.pc.toNat + 1))) = .jp nnn := by
  obtain ⟨-, hword⟩ := h
  obtain ⟨hp, hf⟩ | ⟨-, hf⟩ := fetch_cases s
  · obtain ⟨nnn, ha⟩ := exists_addressOf_eq (Nat.lt_of_succ_lt hp)
    refine ⟨hp, nnn, ha, ?_⟩
    rw [Except.ok.inj (hf.symm.trans hword), ← ha, ← encode_jp_eq_or, decode_encode _ rfl]
  · cases hf.symm.trans hword

/-- The engine of an ended run jumps to where it is. -/
theorem engine_of_ended {s : State} (h : s.ended) : engine s = .next s := by
  obtain ⟨hp, nnn, ha, hd⟩ := h.decodes_to_self_jump
  calc engine s
    _ = exec (.jp nnn) s := by rw [engine_of_running s h.1 hp, hd]
    _ = .next (s.jumpTo (addressOf nnn)) := rfl
    _ = .next s := by rw [ha]; rfl

/-- Settles O13: neither the refresh nor the keeping of the sample touches MODE, PC or MEM, and the engine
between them leaves the state as it is. -/
theorem endedRunStaysEnded : Obligations.EndedRunStaysEnded := by
  intro s keysIn rnd rest hended hs
  have hafter : ({ s with script := rest }.sample keysIn rnd).ended := hended
  have hcycle := cycle_eq keysIn rnd { s with script := rest } _ (engine_of_ended hafter)
  exact ⟨_, (step_cycle s keysIn rnd rest hs).trans hcycle, hended, rfl⟩

end Sys2Proof.Machine
end
